-- ==== Sys2Proof/Word.lean ====
section
/-! DEFINITION. The quantities of the unit (00_scope.md R10, R17): bytes, 32-bit words,
64-bit counters, and byte arrays of a fixed size. Every number is unsigned. -/

namespace Sys2Proof

/-- A byte: 8 bits (R10). -/
abbrev Byte := BitVec 8

/-- A word: 32 bits (R7, R10). -/
abbrev Word := BitVec 32

/-- A 64-bit number: the length counter and the length field of the padding (R7). -/
abbrev DWord := BitVec 64

/-- A byte array of exactly `n` bytes, addressed by byte offset from 0 (R50). -/
abbrev Bytes (n : Nat) := Vector Byte n

/-- A block: 64 bytes (R7, R14). -/
abbrev Block := Bytes 64

end Sys2Proof
end

