-- ==== Sys2Proof/Syntax.lean ====
section
/-! DEFINITION. The commands of the unit (30_encoding.md R75): one constructor for each row of
the opcode table. The only operand is the payload of a format-U command; its length operand `len`
is the payload's length (R74, R79). -/

namespace Sys2Proof

/-- The four engines (R1, R71). -/
inductive Engine where
  | md4 | md5 | sha1 | crc32
  deriving DecidableEq, Repr

/-- The four operations every engine exposes (R14, R71). -/
inductive Op where
  | reset | update | finish | getHash
  deriving DecidableEq, Repr

/-- The sixteen commands (R75). -/
inductive Instr where
  | md4Reset
  | md4Update (data : List Byte)
  | md4Finish
  | md4GetHash
  | md5Reset
  | md5Update (data : List Byte)
  | md5Finish
  | md5GetHash
  | sha1Reset
  | sha1Update (data : List Byte)
  | sha1Finish
  | sha1GetHash
  | crc32Reset
  | crc32Update (data : List Byte)
  | crc32Finish
  | crc32GetHash
  deriving DecidableEq, Repr

/-- The engine a command is addressed to (R71, R75). -/
def Instr.engine : Instr → Engine
  | .md4Reset => .md4
  | .md4Update _ => .md4
  | .md4Finish => .md4
  | .md4GetHash => .md4
  | .md5Reset => .md5
  | .md5Update _ => .md5
  | .md5Finish => .md5
  | .md5GetHash => .md5
  | .sha1Reset => .sha1
  | .sha1Update _ => .sha1
  | .sha1Finish => .sha1
  | .sha1GetHash => .sha1
  | .crc32Reset => .crc32
  | .crc32Update _ => .crc32
  | .crc32Finish => .crc32
  | .crc32GetHash => .crc32

/-- The operation a command asks for (R71, R75). -/
def Instr.op : Instr → Op
  | .md4Reset => .reset
  | .md4Update _ => .update
  | .md4Finish => .finish
  | .md4GetHash => .getHash
  | .md5Reset => .reset
  | .md5Update _ => .update
  | .md5Finish => .finish
  | .md5GetHash => .getHash
  | .sha1Reset => .reset
  | .sha1Update _ => .update
  | .sha1Finish => .finish
  | .sha1GetHash => .getHash
  | .crc32Reset => .reset
  | .crc32Update _ => .update
  | .crc32Finish => .finish
  | .crc32GetHash => .getHash

/-- The payload of a command: empty in format N (R70). -/
def Instr.data : Instr → List Byte
  | .md4Reset => []
  | .md4Update data => data
  | .md4Finish => []
  | .md4GetHash => []
  | .md5Reset => []
  | .md5Update data => data
  | .md5Finish => []
  | .md5GetHash => []
  | .sha1Reset => []
  | .sha1Update data => data
  | .sha1Finish => []
  | .sha1GetHash => []
  | .crc32Reset => []
  | .crc32Update data => data
  | .crc32Finish => []
  | .crc32GetHash => []

/-- The command of an engine and an operation, with a payload where the operation takes one. -/
def Instr.ofFields : Engine → Op → List Byte → Instr
  | .md4, .reset, _ => .md4Reset
  | .md4, .update, data => .md4Update data
  | .md4, .finish, _ => .md4Finish
  | .md4, .getHash, _ => .md4GetHash
  | .md5, .reset, _ => .md5Reset
  | .md5, .update, data => .md5Update data
  | .md5, .finish, _ => .md5Finish
  | .md5, .getHash, _ => .md5GetHash
  | .sha1, .reset, _ => .sha1Reset
  | .sha1, .update, data => .sha1Update data
  | .sha1, .finish, _ => .sha1Finish
  | .sha1, .getHash, _ => .sha1GetHash
  | .crc32, .reset, _ => .crc32Reset
  | .crc32, .update, data => .crc32Update data
  | .crc32, .finish, _ => .crc32Finish
  | .crc32, .getHash, _ => .crc32GetHash

end Sys2Proof
end

