-- ==== Sys2Proof/Config.lean ====
section
/-! DEFINITION. What is fixed for the machine (00_scope.md R2, R7, R8) and its free values: what the
spec leaves unspecified after an accepted command (93_implementation_defined.md U6, U7). -/

namespace Sys2Proof

/-- The identity string of the unit (R2). Nothing depends on it. -/
def Config.identity : String := "SDU-1 (MD4, MD5, SHA1, CRC32-interface)"

/-- LENW, the width in bits of UPDATE's length operand: the spec's one open parameter, at its
default (R8, D4). DESIGN CHOICE, log 9. -/
def Config.lenw : Nat := 32

/-- The length operand in bytes (R73, R74). -/
def Config.lenBytes : Nat := Config.lenw / 8

/-- The block size B in bytes (R7). -/
def Config.blockSize : Nat := 64

/-- DESIGN CHOICE, unsafe (log 1): the byte that fills every register whose value after hardware
reset the spec leaves unspecified (R34, R35, R260). It is not zero, since R35 says "not zeros". -/
def Config.resetFill : Byte := 0xA5

/-- Free value (log 2, log 13): a byte the spec leaves unspecified, of an engine and a counter. -/
opaque Config.freeByte : Engine → Nat → Byte

/-- Free value (log 3, log 13): a 32-bit word the spec leaves unspecified, of an engine and a
counter. -/
opaque Config.freeWord : Engine → Nat → Word

/-- Free value (log 13): a 64-bit counter the spec leaves unspecified, of an engine and a
counter. -/
opaque Config.freeDWord : Engine → Nat → DWord

end Sys2Proof
end

