-- ==== Sys2Proof/Machine/Bytes.lean ====
section
/-! DEFINITION. Word arithmetic and byte-order helpers (00_scope.md R10 to R12) and the two ways
byte arrays are built and read. -/

namespace Sys2Proof.Machine

/-- `rotl(x, n)` for `0 < n < 32`: the 32-bit left rotation (R11). -/
def rotl (x : Word) (n : Nat) : Word := (x <<< n) ||| (x >>> (32 - n))

/-- The array of `n` bytes whose byte at offset `i` is `f i`. -/
def tabulate (n : Nat) (f : Nat → Byte) : Bytes n :=
  ⟨⟨(List.range n).map f⟩, by simp⟩

/-- The byte of an array at an offset; 0 outside it, which no rule reads (R58). -/
def byteAt {n : Nat} (b : Bytes n) (i : Nat) : Byte := b.toList.getD i 0

/-- `zeros(n)` as an array (R10). -/
def zeroBytes (n : Nat) : Bytes n := tabulate n fun _ => 0

/-- The first `n` bytes of a sequence as an array. -/
def takeBytes (n : Nat) (s : List Byte) : Bytes n := tabulate n fun i => s.getD i 0

/-- `le32`: the word of four bytes, byte 0 lowest (R12). -/
def le32 (b0 b1 b2 b3 : Byte) : Word := b3 ++ b2 ++ b1 ++ b0

/-- `be32`: the word of four bytes, byte 0 highest (R12). -/
def be32 (b0 b1 b2 b3 : Byte) : Word := b0 ++ b1 ++ b2 ++ b3

/-- `enc_le32`: the four bytes of a word, lowest first (R12). -/
def encLe32 (v : Word) : List Byte :=
  [v.extractLsb' 0 8, v.extractLsb' 8 8, v.extractLsb' 16 8, v.extractLsb' 24 8]

/-- `enc_be32`: the four bytes of a word, highest first (R12). -/
def encBe32 (v : Word) : List Byte :=
  [v.extractLsb' 24 8, v.extractLsb' 16 8, v.extractLsb' 8 8, v.extractLsb' 0 8]

/-- `enc_le64`: the eight bytes of a 64-bit number, lowest first (R12). -/
def encLe64 (v : DWord) : List Byte :=
  [v.extractLsb' 0 8, v.extractLsb' 8 8, v.extractLsb' 16 8, v.extractLsb' 24 8,
   v.extractLsb' 32 8, v.extractLsb' 40 8, v.extractLsb' 48 8, v.extractLsb' 56 8]

/-- `enc_be64`: the same eight bytes in the opposite order (R12). -/
def encBe64 (v : DWord) : List Byte :=
  [v.extractLsb' 56 8, v.extractLsb' 48 8, v.extractLsb' 40 8, v.extractLsb' 32 8,
   v.extractLsb' 24 8, v.extractLsb' 16 8, v.extractLsb' 8 8, v.extractLsb' 0 8]

/-- The number that a byte sequence of any length writes little-endian (R74). -/
def leNat : List Byte → Nat
  | [] => 0
  | b :: bs => b.toNat + 256 * leNat bs

/-- The `k` low bytes of a number, little-endian (R74). -/
def leBytes : Nat → Nat → List Byte
  | 0, _ => []
  | k + 1, v => BitVec.ofNat 8 v :: leBytes k (v / 256)

/-- The sixteen little-endian message words of a block: `X[i] = le32(block[4i .. 4i+3])` (R51). -/
def wordsLe (b : Block) : List Word :=
  (List.range 16).map fun i =>
    le32 (byteAt b (4 * i)) (byteAt b (4 * i + 1)) (byteAt b (4 * i + 2)) (byteAt b (4 * i + 3))

/-- The sixteen big-endian message words of a block: `w[i] = be32(block[4i .. 4i+3])` (R51). -/
def wordsBe (b : Block) : List Word :=
  (List.range 16).map fun i =>
    be32 (byteAt b (4 * i)) (byteAt b (4 * i + 1)) (byteAt b (4 * i + 2)) (byteAt b (4 * i + 3))

end Sys2Proof.Machine
end

