-- ==== Sys2Proof/Machine/State.lean ====
section
/-! DEFINITION. The architectural state of the unit (10_state.md R20 to R35), the responses and
rejections (30_encoding.md R80, 60_exceptions.md R234), and the state after hardware reset (R34). -/

namespace Sys2Proof.Machine

/-- The phase register (R27). The value 3 is never held and has no name here (log 10). -/
inductive Phase where
  | uninit
  | ready
  | finished
  deriving DecidableEq, Repr

/-- The four state words of MD4 and of MD5 (R21); also the working words a, b, c, d (R22). -/
structure Hash4 where
  h0 : Word
  h1 : Word
  h2 : Word
  h3 : Word
  deriving DecidableEq, Repr

/-- The five state words of SHA-1 (R21); also the working words a, b, c, d, e (R22). -/
structure Hash5 where
  h0 : Word
  h1 : Word
  h2 : Word
  h3 : Word
  h4 : Word
  deriving DecidableEq, Repr

/-- The registers of a block engine (R20) with state words `σ` and an `l`-byte digest. The field
`free` is the model's own: the counter of the free values this engine has used. -/
structure BlockEngine (σ : Type) (l : Nat) where
  ph : Phase
  h : σ
  len : DWord
  buf : Bytes 64
  dig : Bytes l
  free : Nat
  deriving DecidableEq, Repr

/-- The registers of the CRC32 engine (R20, R28). `free` is the model's own, as above. -/
structure CrcEngine where
  ph : Phase
  crc : Word
  dig : Bytes 4
  free : Nat
  deriving DecidableEq, Repr

/-- The status of a response (R80, R234). -/
inductive Status where
  | ok
  | errIllegal
  | errProtocol
  deriving DecidableEq, Repr

/-- A response (R80): a status and, for an accepted GETHASH, the digest bytes. -/
structure Response where
  status : Status
  digest : List Byte
  deriving DecidableEq, Repr

/-- The rejections (R231 to R235), recorded in `State.fault` and kept for the run (R244, log 4).
No step answers `Outcome.fault`; `contractStep` (Safety.lean) does. Both are safe there: it stops
where the unit goes on. -/
inductive Fault where
  /-- Recorded by a command its engine's phase does not admit (R232). -/
  | protocolError (e : Engine) (op : Op)
  /-- Recorded by a command word whose reserved field is not zero (R233). -/
  | illegalCommand (cw : Byte)
  deriving DecidableEq, Repr

/-- Why a step could have no meaning. -/
inductive Refusal where
  /-- Raised by an arm of `exec` whose instruction has no meaning yet: none is left. Safe. -/
  | notModelled (mnemonic : String)
  deriving DecidableEq, Repr

/-- The state: the registers of the four engines (R20, R32), and the model's own record of the
command stream not yet consumed, the responses sent and the first rejection of the run. -/
structure State where
  md4 : BlockEngine Hash4 16
  md5 : BlockEngine Hash4 16
  sha1 : BlockEngine Hash5 20
  crc32 : CrcEngine
  input : List Byte
  responses : List Response
  fault : Option Fault
  deriving DecidableEq, Repr

/-- DESIGN CHOICE, unsafe (log 1): a word of the fill byte. -/
def fillWord : Word :=
  le32 Config.resetFill Config.resetFill Config.resetFill Config.resetFill

/-- DESIGN CHOICE, unsafe (log 1): a 64-bit counter of the fill byte. -/
def fillDWord : DWord := fillWord ++ fillWord

/-- DESIGN CHOICE, unsafe (log 1): an array of the fill byte. -/
def fillBytes (n : Nat) : Bytes n := tabulate n fun _ => Config.resetFill

/-- A block engine right after hardware reset: UNINIT, all else unspecified (R34, R260). -/
def resetEngine {σ : Type} (l : Nat) (h : σ) : BlockEngine σ l :=
  { ph := .uninit, h := h, len := fillDWord, buf := fillBytes 64, dig := fillBytes l, free := 0 }

/-- The unit right after hardware reset (R34, R260): every engine UNINIT, every other register
unspecified (here the fill of log 1), nothing received, nothing sent, nothing rejected. -/
def State.reset : State :=
  { md4 := resetEngine 16 ⟨fillWord, fillWord, fillWord, fillWord⟩
    md5 := resetEngine 16 ⟨fillWord, fillWord, fillWord, fillWord⟩
    sha1 := resetEngine 20 ⟨fillWord, fillWord, fillWord, fillWord, fillWord⟩
    crc32 := { ph := .uninit, crc := fillWord, dig := fillBytes 4, free := 0 }
    input := []
    responses := []
    fault := none }

end Sys2Proof.Machine
end

