-- ==== Sys2Proof/Machine/Flags.lean ====
section
/-! DEFINITION. The unit's only flag, the phase register (10_state.md R27), the admission table
that reads it (60_exceptions.md R235), and the codes of responses (30_encoding.md R80). -/

namespace Sys2Proof.Machine

/-- The two bits of a phase (R27). -/
def Phase.code : Phase → BitVec 2
  | .uninit => 0
  | .ready => 1
  | .finished => 2

/-- The admission table, the same for every engine (R235). -/
def admits : Op → Phase → Bool
  | .reset, .uninit => true
  | .reset, .ready => true
  | .reset, .finished => true
  | .update, .uninit => false
  | .update, .ready => true
  | .update, .finished => false
  | .finish, .uninit => false
  | .finish, .ready => true
  | .finish, .finished => false
  | .getHash, .uninit => false
  | .getHash, .ready => false
  | .getHash, .finished => true

/-- The phase an accepted operation leaves (R27, R115). -/
def nextPhase : Op → Phase → Phase
  | .reset, _ => .ready
  | .update, p => p
  | .finish, _ => .finished
  | .getHash, p => p

/-- The status byte (R80, R234). -/
def Status.code : Status → Byte
  | .ok => 0x00
  | .errIllegal => 0x01
  | .errProtocol => 0x02

/-- The bytes of a response: the status, then the digest of an accepted GETHASH (R80). -/
def Response.bytes (r : Response) : List Byte := r.status.code :: r.digest

end Sys2Proof.Machine
end

