-- ==== Sys2Proof/WellFormed.lean ====
section
/-! DEFINITION. Which commands are well formed: an UPDATE's payload must be short enough for its
length operand of LENW bits (30_encoding.md R74). Format N has no operand to check. -/

namespace Sys2Proof

/-- A payload that one UPDATE can carry: 0 to 2^LENW - 1 bytes (R74). -/
def payloadFits (data : List Byte) : Bool :=
  decide (data.length < 2 ^ Config.lenw)

/-- The checks a command passes. -/
def Instr.wellFormed : Instr → Bool
  | .md4Reset => true
  | .md4Update data => payloadFits data
  | .md4Finish => true
  | .md4GetHash => true
  | .md5Reset => true
  | .md5Update data => payloadFits data
  | .md5Finish => true
  | .md5GetHash => true
  | .sha1Reset => true
  | .sha1Update data => payloadFits data
  | .sha1Finish => true
  | .sha1GetHash => true
  | .crc32Reset => true
  | .crc32Update data => payloadFits data
  | .crc32Finish => true
  | .crc32GetHash => true

end Sys2Proof
end

