-- ==== Sys2Proof/Decode.lean ====
section
/-! DEFINITION. The decoder of the command stream (30_encoding.md R70 to R78) and the encoder
(R75, R82). The decoder reads the fields of the command word; the encoder is the opcode table. -/

open Sys2Proof.Machine

namespace Sys2Proof

/-- What a byte string begins with (R78): a complete command and what follows it, an illegal
command word (one byte, R76) and what follows it, or a proper prefix of a command, or nothing. -/
inductive Decoded where
  | command (i : Instr) (rest : List Byte)
  | illegal (cw : Byte) (rest : List Byte)
  | incomplete
  deriving DecidableEq, Repr

/-- `cw[7:4]`, the reserved field (R71). -/
def rsvField (cw : Byte) : BitVec 4 := cw.extractLsb' 4 4

/-- `cw[3:2]`, the engine (R71). -/
def engineField (cw : Byte) : Engine :=
  match (cw.extractLsb' 2 2).toNat with
  | 0 => .md4
  | 1 => .md5
  | 2 => .sha1
  | _ => .crc32

/-- `cw[1:0]`, the operation (R71). -/
def opField (cw : Byte) : Op :=
  match (cw.extractLsb' 0 2).toNat with
  | 0 => .reset
  | 1 => .update
  | 2 => .finish
  | _ => .getHash

/-- Decode the first command of a byte string (R78): the reserved field first (R236), then the
format by the operation, then for format U the length operand and the payload (R73, R74). -/
def decode (bs : List Byte) : Decoded :=
  match bs with
  | [] => .incomplete
  | cw :: rest =>
    if rsvField cw ≠ 0 then .illegal cw rest
    else if opField cw = .update then
      if rest.length < Config.lenBytes then .incomplete
      else
        let len := leNat (rest.take Config.lenBytes)
        let body := rest.drop Config.lenBytes
        if body.length < len then .incomplete
        else .command (Instr.ofFields (engineField cw) .update (body.take len)) (body.drop len)
    else .command (Instr.ofFields (engineField cw) (opField cw) []) rest

/-- Format U (R73): the command word, `len` little-endian, the payload. -/
def encodeU (cw : Byte) (data : List Byte) : List Byte :=
  cw :: (leBytes Config.lenBytes data.length ++ data)

/-- The bytes of a command: the opcode table of R75. -/
def encode : Instr → List Byte
  | .md4Reset => [0x00]
  | .md4Update data => encodeU 0x01 data
  | .md4Finish => [0x02]
  | .md4GetHash => [0x03]
  | .md5Reset => [0x04]
  | .md5Update data => encodeU 0x05 data
  | .md5Finish => [0x06]
  | .md5GetHash => [0x07]
  | .sha1Reset => [0x08]
  | .sha1Update data => encodeU 0x09 data
  | .sha1Finish => [0x0A]
  | .sha1GetHash => [0x0B]
  | .crc32Reset => [0x0C]
  | .crc32Update data => encodeU 0x0D data
  | .crc32Finish => [0x0E]
  | .crc32GetHash => [0x0F]

/-- The length in bytes of the command that starts a byte string whose command word and, in format
U, length operand have arrived (R78). -/
def commandLength : List Byte → Nat
  | [] => 1
  | cw :: rest =>
    if rsvField cw ≠ 0 then 1
    else if opField cw = .update then
      1 + Config.lenBytes + leNat (rest.take Config.lenBytes)
    else 1

/-- A byte string made up with zero bytes to a complete command. -/
def padCommand (bs : List Byte) : List Byte :=
  let header := bs ++ List.replicate (1 + Config.lenBytes - bs.length) 0
  bs ++ List.replicate (commandLength header - bs.length) 0

/-- The bytes in stream order of an opcode-table row's bits, its unlisted operand bytes zero. -/
def tableBytes (nbits w : Nat) : List Byte :=
  padCommand (leBytes ((nbits + 7) / 8) w)

/-- The instruction this decoder reads from an opcode-table row's bits. -/
def decodeTableWord (nbits w : Nat) : Option Instr :=
  match decode (tableBytes nbits w) with
  | .command i _ => some i
  | .illegal _ _ => none
  | .incomplete => none

end Sys2Proof
end

