-- ==== Sys2Proof/Machine/Operands.lean ====
section
/-! DEFINITION. The operands: UPDATE's length and payload (30_encoding.md R73, R74), the payload
forms of the assembler (R79), the lines it is written in (R79, R81), and the commands a HASH stands
for (45_host_sequences.md R201). The text of a line is a notation and is not parsed (log 17). -/

namespace Sys2Proof.Machine

/-- `len` zero-extended to 64 bits, as it is added to `E.len` (R74). -/
def payloadLen (data : List Byte) : DWord := BitVec.ofNat 64 data.length

/-- The sub-sequence from index `i` to index `j` inclusive, empty when `j < i` (R10). -/
def slice (s : List Byte) (i j : Nat) : List Byte := (s.drop i).take (j + 1 - i)

/-- `PAT(n)`: the bytes 0, 1, 2, ..., (n-1) mod 256 (R79). -/
def pat (n : Nat) : List Byte := (List.range n).map fun i => BitVec.ofNat 8 i

/-- The payload forms of an assembler line (R79). -/
inductive Payload where
  /-- A double-quoted ASCII string: its characters' codes. -/
  | ascii (s : String)
  /-- A list of hex bytes. -/
  | hex (bytes : List Byte)
  /-- `<hex byte> * <count>`. -/
  | rep (byte : Byte) (count : Nat)
  /-- `PAT(<n>)`. -/
  | pattern (n : Nat)
  /-- `PAT(<n>)[i..j]`. -/
  | patternSlice (n i j : Nat)
  deriving DecidableEq, Repr

/-- The bytes a payload form stands for (R79). -/
def payloadBytes : Payload → List Byte
  | .ascii s => s.toList.map fun c => BitVec.ofNat 8 c.toNat
  | .hex bytes => bytes
  | .rep byte count => List.replicate count byte
  | .pattern n => pat n
  | .patternSlice n i j => slice (pat n) i j

/-- The lines of the assembler (R79, R81). -/
inductive AsmLine where
  | reset (e : Engine)
  | update (e : Engine) (p : Payload)
  | finish (e : Engine)
  | getHash (e : Engine)
  /-- The pseudo-command `<ENG>.HASH <payload>` (R81, R201). -/
  | hash (e : Engine) (p : Payload)
  /-- `.BYTE <hex>`: a raw command word (R79). -/
  | raw (b : Byte)
  deriving DecidableEq, Repr

/-- At most `fuel` consecutive pieces of `c` bytes, the last one shorter where need be, none
empty. -/
def piecesOf (c : Nat) : Nat → List Byte → List (List Byte)
  | 0, _ => []
  | fuel + 1, data =>
    if data.isEmpty then [] else data.take c :: piecesOf c fuel (data.drop c)

/-- The longest payload of one UPDATE, 2^LENW - 1 bytes (R74). -/
def maxPayload : Nat := 2 ^ Config.lenw - 1

/-- The payloads a host sends `data` in (R201): one, or consecutive pieces where `data` is longer
than one UPDATE can carry. That each piece but the last is as long as can be is the model's choice
(log 20), which R107 makes unobservable. -/
def payloadPieces (data : List Byte) : List (List Byte) :=
  if payloadFits data then [data] else piecesOf maxPayload data.length data

/-- The UPDATEs that carry `data` to an engine (R201). -/
def updateCommands (e : Engine) (data : List Byte) : List Instr :=
  (payloadPieces data).map (Instr.ofFields e .update)

/-- A message delivered to one engine in pieces: RESET, an UPDATE for each piece, FINISH, GETHASH
(R107, R201). -/
def piecewiseCommands (e : Engine) (pieces : List (List Byte)) : List Instr :=
  Instr.ofFields e .reset [] :: (pieces.map (Instr.ofFields e .update) ++
    [Instr.ofFields e .finish [], Instr.ofFields e .getHash []])

/-- The commands that `<ENG>.HASH data` stands for, in order: RESET, UPDATE, FINISH, GETHASH, the
UPDATE repeated over consecutive pieces where one cannot carry `data` (R81, R201). -/
def hashCommands (e : Engine) (data : List Byte) : List Instr :=
  piecewiseCommands e (payloadPieces data)

/-- The bytes of a list of commands, in order (R70). -/
def encodeAll (is : List Instr) : List Byte := is.flatMap encode

/-- The bytes of an assembler line (R75, R79, R81). -/
def assemble : AsmLine → List Byte
  | .reset e => encode (Instr.ofFields e .reset [])
  | .update e p => encode (Instr.ofFields e .update (payloadBytes p))
  | .finish e => encode (Instr.ofFields e .finish [])
  | .getHash e => encode (Instr.ofFields e .getHash [])
  | .hash e p => encodeAll (hashCommands e (payloadBytes p))
  | .raw b => [b]

end Sys2Proof.Machine
end

