-- ==== Sys2Proof/Machine/Ops.lean ====
section
/-! DEFINITION. The named operations over the buffers and registers: MemRead and MemWrite
(00_scope.md R13), the writes of each part of the state, the response (30_encoding.md R80), the one
rejection operation (60_exceptions.md R232, R233), the admission of a command (R235), and hardware
reset as an event (70_reset_and_hazards.md R260). -/

namespace Sys2Proof.Machine

/-- `MemRead(E.buf, off, n)`: the bytes `E.buf[off .. off+n-1]` (R13). -/
def memRead {size : Nat} (b : Bytes size) (off n : Nat) : List Byte := (b.toList.drop off).take n

/-- `MemWrite(E.buf, off, n, s)` with `n = |s|`: `s` goes to `E.buf[off .. off+n-1]`, every other
byte is kept (R13). -/
def memWrite {size : Nat} (b : Bytes size) (off : Nat) (s : List Byte) : Bytes size :=
  tabulate size fun i => if off ≤ i then (s[i - off]?).getD (byteAt b i) else byteAt b i

/-- `n` free bytes of an engine from a counter on: what the spec leaves unspecified (log 2). -/
def freshBytes (e : Engine) (counter n : Nat) : Bytes n :=
  tabulate n fun i => Config.freeByte e (counter + i)

/-- Write the MD4 engine's registers. -/
def State.setMd4 (s : State) (e : BlockEngine Hash4 16) : State := { s with md4 := e }

/-- Write the MD5 engine's registers. -/
def State.setMd5 (s : State) (e : BlockEngine Hash4 16) : State := { s with md5 := e }

/-- Write the SHA1 engine's registers. -/
def State.setSha1 (s : State) (e : BlockEngine Hash5 20) : State := { s with sha1 := e }

/-- Write the CRC32 engine's registers. -/
def State.setCrc32 (s : State) (e : CrcEngine) : State := { s with crc32 := e }

/-- Replace the command stream not yet consumed. -/
def State.setInput (s : State) (bs : List Byte) : State := { s with input := bs }

/-- The host sends bytes (R70): they follow what the unit has not consumed yet. -/
def State.offer (s : State) (bs : List Byte) : State := s.setInput (s.input ++ bs)

/-- The phase of an engine (R27). -/
def State.phaseOf (s : State) : Engine → Phase
  | .md4 => s.md4.ph
  | .md5 => s.md5.ph
  | .sha1 => s.sha1.ph
  | .crc32 => s.crc32.ph

/-- The digest latch of an engine, in index order (R26). -/
def State.digOf (s : State) : Engine → List Byte
  | .md4 => s.md4.dig.toList
  | .md5 => s.md5.dig.toList
  | .sha1 => s.sha1.dig.toList
  | .crc32 => s.crc32.dig.toList

/-- `respond(status, bytes)` (R80): the response follows those already sent (R70). -/
def State.respond (s : State) (status : Status) (digest : List Byte) : State :=
  { s with responses := s.responses ++ [{ status := status, digest := digest }] }

/-- The first rejection of the run is recorded and kept (R244, log 4, log 18). -/
def State.recordFault (s : State) (f : Fault) : State :=
  { s with fault := some (s.fault.getD f) }

/-- A rejection, the unit's only exception (R232, R233, R238): no register of any engine changes,
the status byte is sent, nothing is saved; the model records that it happened (R244). -/
def State.reject (s : State) (status : Status) (f : Fault) : State :=
  (s.respond status []).recordFault f

/-- `raise ProtocolError` (R232). -/
def State.protocolError (s : State) (e : Engine) (op : Op) : State :=
  s.reject .errProtocol (.protocolError e op)

/-- `raise IllegalCommand` (R233). -/
def State.illegalCommand (s : State) (cw : Byte) : State :=
  s.reject .errIllegal (.illegalCommand cw)

/-- The admission check of a command (R235): where the engine's phase admits the operation the
command has the effect given, and otherwise it is rejected. -/
def State.ifAdmitted (s : State) (e : Engine) (op : Op) (accepted : State) :
    Host.Outcome State Fault Refusal :=
  if admits op (s.phaseOf e) then .next accepted else .next (s.protocolError e op)

/-- A block engine hit by hardware reset: UNINIT, every other register unspecified (R260). -/
def BlockEngine.hardwareReset {σ : Type} {l : Nat} (e : Engine) (h : σ) (b : BlockEngine σ l) :
    BlockEngine σ l :=
  { ph := .uninit
    h := h
    len := Config.freeDWord e b.free
    buf := freshBytes e b.free 64
    dig := freshBytes e (b.free + 64) l
    free := b.free + 64 + l }

/-- Four unspecified words of an engine (R260). -/
def freshHash4 (e : Engine) (counter : Nat) : Hash4 :=
  { h0 := Config.freeWord e counter, h1 := Config.freeWord e (counter + 1)
    h2 := Config.freeWord e (counter + 2), h3 := Config.freeWord e (counter + 3) }

/-- Five unspecified words of an engine (R260). -/
def freshHash5 (e : Engine) (counter : Nat) : Hash5 :=
  { h0 := Config.freeWord e counter, h1 := Config.freeWord e (counter + 1)
    h2 := Config.freeWord e (counter + 2), h3 := Config.freeWord e (counter + 3)
    h4 := Config.freeWord e (counter + 4) }

/-- Hardware reset between two commands (R260, log 13): all four engines UNINIT, every other
register unspecified; a new run begins (R273), so its record of responses and faults is empty; the
bytes the unit has not consumed are the host's and stay. -/
def State.hardwareReset (s : State) : State :=
  { md4 := BlockEngine.hardwareReset .md4 (freshHash4 .md4 s.md4.free) s.md4
    md5 := BlockEngine.hardwareReset .md5 (freshHash4 .md5 s.md5.free) s.md5
    sha1 := BlockEngine.hardwareReset .sha1 (freshHash5 .sha1 s.sha1.free) s.sha1
    crc32 :=
      { ph := .uninit
        crc := Config.freeWord .crc32 s.crc32.free
        dig := freshBytes .crc32 s.crc32.free 4
        free := s.crc32.free + 4 }
    input := s.input
    responses := []
    fault := none }

/-- Hardware reset while the next command is being executed (R260, log 13): that command is lost
without a response. -/
def State.hardwareResetDuring (s : State) : State :=
  match decode s.input with
  | .command _ rest => (s.setInput rest).hardwareReset
  | .illegal _ rest => (s.setInput rest).hardwareReset
  | .incomplete => s.hardwareReset

end Sys2Proof.Machine
end

