-- ==== Sys2Proof/Machine/Crc32.lean ====
section
/-! DEFINITION. The CRC-32 engine (44_crc32.md): CRC32_Step and the four commands. -/

namespace Sys2Proof.Machine

/-- `POLY`, reflected (R181). -/
def crcPoly : Word := 0xEDB88320

/-- The initial register value (R181). -/
def crcInit : Word := 0xFFFFFFFF

/-- The final XOR (R181). -/
def crcFinalXor : Word := 0xFFFFFFFF

/-- One shift of CRC32_Step (R182). -/
def crcShift (crc : Word) : Word :=
  if crc.getLsbD 0 then (crc >>> 1) ^^^ crcPoly else crc >>> 1

/-- `k` shifts. -/
def crcShifts : Nat → Word → Word
  | 0, crc => crc
  | k + 1, crc => crcShifts k (crcShift crc)

/-- `CRC32_Step(crc, byte)` (R182). -/
def crcStep (crc : Word) (byte : Byte) : Word := crcShifts 8 (crc ^^^ byte.setWidth 32)

/-- The body of CRC32.UPDATE: the bytes in ascending order (R186, R189). -/
def crcFold (crc : Word) (data : List Byte) : Word := data.foldl crcStep crc

/-- The digest of a register value: the final XOR, big-endian (R184, R187). -/
def crcDigest (crc : Word) : Bytes 4 := takeBytes 4 (encBe32 (crc ^^^ crcFinalXor))

/-- `Digest_CRC32(data)` (R201). -/
def crcDigestOf (data : List Byte) : Bytes 4 := crcDigest (crcFold crcInit data)

/-- The registers after an accepted `CRC32.RESET`; `dig` is unspecified: free values (log 2). -/
def crcReset (c : CrcEngine) : CrcEngine :=
  { ph := .ready, crc := crcInit, dig := freshBytes .crc32 c.free 4, free := c.free + 4 }

/-- The registers after an accepted `CRC32.UPDATE` (R186). -/
def crcUpdate (c : CrcEngine) (data : List Byte) : CrcEngine :=
  { c with crc := crcFold c.crc data }

/-- The registers after an accepted `CRC32.FINISH` (R187); `crc` is unspecified: a free value
(log 3). -/
def crcFinish (c : CrcEngine) : CrcEngine :=
  { ph := .finished
    crc := Config.freeWord .crc32 c.free
    dig := crcDigest c.crc
    free := c.free + 1 }

/-- `CRC32.RESET` (R185). -/
def execCrc32Reset (s : State) : Host.Outcome State Fault Refusal :=
  s.ifAdmitted .crc32 .reset ((s.setCrc32 (crcReset s.crc32)).respond .ok [])

/-- `CRC32.UPDATE data` (R186). -/
def execCrc32Update (data : List Byte) (s : State) : Host.Outcome State Fault Refusal :=
  s.ifAdmitted .crc32 .update ((s.setCrc32 (crcUpdate s.crc32 data)).respond .ok [])

/-- `CRC32.FINISH` (R187). -/
def execCrc32Finish (s : State) : Host.Outcome State Fault Refusal :=
  s.ifAdmitted .crc32 .finish ((s.setCrc32 (crcFinish s.crc32)).respond .ok [])

/-- `CRC32.GETHASH` (R188). -/
def execCrc32GetHash (s : State) : Host.Outcome State Fault Refusal :=
  s.ifAdmitted .crc32 .getHash (s.respond .ok s.crc32.dig.toList)

end Sys2Proof.Machine
end

