-- ==== Sys2Proof/Machine/Accumulator.lean ====
section
/-! DEFINITION. The block-buffering accumulator shared by MD4, MD5 and SHA-1
(40_block_buffer.md): Reset_E, Absorb_E, Finish_E, GetHash_E for an engine given by its parameters
(R110), and Digest_E, the digest as a function of the message (R112). -/

namespace Sys2Proof.Machine

/-- What a block engine supplies to the shared procedures (R110). `zero` is the state vector of
zero words that Finish_E leaves (R104, R113). -/
structure Algorithm (σ : Type) (l : Nat) where
  engine : Engine
  iv : σ
  zero : σ
  compress : σ → Block → σ
  enc64 : DWord → List Byte
  ser : σ → Bytes l

/-- `Reset_E` (R111). `buf` and `dig` are unspecified afterwards: free values (log 2). -/
def resetEngineState {σ : Type} {l : Nat} (alg : Algorithm σ l) (e : BlockEngine σ l) :
    BlockEngine σ l :=
  { ph := .ready
    h := alg.iv
    len := 0
    buf := freshBytes alg.engine e.free 64
    dig := freshBytes alg.engine (e.free + 64) l
    free := e.free + 64 + l }

/-- Case C of R101: compress `k` whole blocks in turn, straight from the input. -/
def compressBlocks {σ : Type} {l : Nat} (alg : Algorithm σ l) : Nat → σ → List Byte → σ
  | 0, h, _ => h
  | k + 1, h, data => compressBlocks alg k (alg.compress h (takeBytes 64 data)) (data.drop 64)

/-- Cases C and D of R101: whole blocks straight from the input, then the tail into the buffer. -/
def absorbWhole {σ : Type} {l : Nat} (alg : Algorithm σ l) (e : BlockEngine σ l)
    (data : List Byte) : BlockEngine σ l :=
  let k := data.length / 64
  { e with
    h := compressBlocks alg k e.h data
    buf := memWrite e.buf 0 (data.drop (64 * k)) }

/-- `index = E.len mod 64`: the count of bytes waiting in the buffer (R23, R101). -/
def bufIndex {σ : Type} {l : Nat} (e : BlockEngine σ l) : Nat := e.len.toNat % 64

/-- `Absorb_E(data)` (R101), case by case. -/
def absorb {σ : Type} {l : Nat} (alg : Algorithm σ l) (e : BlockEngine σ l) (data : List Byte) :
    BlockEngine σ l :=
  let index := bufIndex e
  let e := { e with len := e.len + payloadLen data }
  if index ≠ 0 then
    if index + data.length < 64 then
      { e with buf := memWrite e.buf index data }
    else
      let fill := 64 - index
      let buf := memWrite e.buf index (data.take fill)
      let h := alg.compress e.h (takeBytes 64 (memRead buf 0 64))
      absorbWhole alg { e with buf := buf, h := h } (data.drop fill)
  else absorbWhole alg e data

/-- `k = (55 - index) mod 64`: the least number of zero bytes of the padding (R104). -/
def padZeros (index : Nat) : Nat := (119 - index) % 64

/-- The padding of a stream of `len` bytes: 0x80, zeros, the bit length taken before padding
(R104). -/
def padding {σ : Type} {l : Nat} (alg : Algorithm σ l) (len : DWord) : List Byte :=
  let bitlen := len * 8
  let index := len.toNat % 64
  0x80 :: (List.replicate (padZeros index) 0 ++ alg.enc64 bitlen)

/-- `Finish_E` (R104): absorb the padding, latch the digest, then zeroize (R113, C1). -/
def finishEngine {σ : Type} {l : Nat} (alg : Algorithm σ l) (e : BlockEngine σ l) :
    BlockEngine σ l :=
  let padded := absorb alg e (padding alg e.len)
  { padded with
    dig := alg.ser padded.h
    h := alg.zero
    len := 0
    buf := zeroBytes 64
    ph := .finished }

/-- Compress the whole blocks of a sequence in turn (R106). -/
def foldBlocks {σ : Type} {l : Nat} (alg : Algorithm σ l) (h : σ) (bytes : List Byte) : σ :=
  compressBlocks alg (bytes.length / 64) h bytes

/-- `S ++ [0x80] ++ zeros(k) ++ enc64_E(8*|S|)`, the padded message (R112). -/
def padMessage {σ : Type} {l : Nat} (alg : Algorithm σ l) (msg : List Byte) : List Byte :=
  msg ++ padding alg (payloadLen msg)

/-- `Digest_E(S)`: the digest as a function of the message (R112). -/
def digestOf {σ : Type} {l : Nat} (alg : Algorithm σ l) (msg : List Byte) : Bytes l :=
  alg.ser (foldBlocks alg alg.iv (padMessage alg msg))

/-- The bytes waiting in the buffer (R25, R29): those the spec gives a value in phase READY. -/
def pending {σ : Type} {l : Nat} (e : BlockEngine σ l) : List Byte :=
  e.buf.toList.take (bufIndex e)

end Sys2Proof.Machine
end

