-- ==== Sys2Proof/Machine/Md4.lean ====
section
/-! DEFINITION. The MD4 engine (41_md4.md): constants, MD4_Compress and the four commands. -/

namespace Sys2Proof.Machine

/-- `IV_MD4` (R121). -/
def md4Iv : Hash4 := { h0 := 0x67452301, h1 := 0xEFCDAB89, h2 := 0x98BADCFE, h3 := 0x10325476 }

/-- Round 1: if x then y else z, bit by bit (R122). -/
def md4F (x y z : Word) : Word := (x &&& y) ||| (~~~x &&& z)

/-- Round 2: majority (R122). -/
def md4G (x y z : Word) : Word := (x &&& y) ||| (x &&& z) ||| (y &&& z)

/-- Round 3: parity (R122). -/
def md4H (x y z : Word) : Word := x ^^^ y ^^^ z

/-- The function of a round, the rounds numbered 1 to 3 (R124). -/
def md4Fun : Nat → Word → Word → Word → Word
  | 1 => md4F
  | 2 => md4G
  | _ => md4H

/-- `K_r` (R124). -/
def md4K : Nat → Word
  | 1 => 0x00000000
  | 2 => 0x5A827999
  | _ => 0x6ED9EBA1

/-- `S_r`, used cyclically (R124). -/
def md4S : Nat → List Nat
  | 1 => [3, 7, 11, 19]
  | 2 => [3, 5, 9, 13]
  | _ => [3, 9, 11, 15]

/-- `ORD_r`, the message-word order (R124). -/
def md4Ord : Nat → List Nat
  | 1 => [0, 1, 2, 3, 4, 5, 6, 7, 8, 9, 10, 11, 12, 13, 14, 15]
  | 2 => [0, 4, 8, 12, 1, 5, 9, 13, 2, 6, 10, 14, 3, 7, 11, 15]
  | _ => [0, 8, 4, 12, 2, 10, 6, 14, 1, 9, 5, 13, 3, 11, 7, 15]

/-- Step `j` of MD4_Compress over the working words a, b, c, d (R125). Nothing is added to the
rotated value (R132, C3). -/
def md4Step (x : List Word) (w : Hash4) (j : Nat) : Hash4 :=
  let r := j / 16 + 1
  let f := md4Fun r w.h1 w.h2 w.h3
  let t := rotl (w.h0 + f + x.getD ((md4Ord r).getD (j % 16) 0) 0 + md4K r)
    ((md4S r).getD (j % 4) 0)
  { h0 := w.h3, h1 := t, h2 := w.h1, h3 := w.h2 }

/-- `MD4_Compress(Hin, block)` (R125): 48 steps, then the feed-forward (R126). -/
def md4Compress (hin : Hash4) (block : Block) : Hash4 :=
  let out := (List.range 48).foldl (md4Step (wordsLe block)) hin
  { h0 := hin.h0 + out.h0, h1 := hin.h1 + out.h1, h2 := hin.h2 + out.h2, h3 := hin.h3 + out.h3 }

/-- Four words, little-endian, H[0] first: the digest of MD4 and of MD5 (R53, R127, R148). -/
def serLe4 (h : Hash4) : Bytes 16 :=
  takeBytes 16 (encLe32 h.h0 ++ encLe32 h.h1 ++ encLe32 h.h2 ++ encLe32 h.h3)

/-- Four zero words (R104). -/
def zeroHash4 : Hash4 := { h0 := 0, h1 := 0, h2 := 0, h3 := 0 }

/-- MD4's parameters (R110). -/
def md4Alg : Algorithm Hash4 16 :=
  { engine := .md4, iv := md4Iv, zero := zeroHash4, compress := md4Compress
    enc64 := encLe64, ser := serLe4 }

/-- `MD4.RESET` (R128). -/
def execMd4Reset (s : State) : Host.Outcome State Fault Refusal :=
  s.ifAdmitted .md4 .reset ((s.setMd4 (resetEngineState md4Alg s.md4)).respond .ok [])

/-- `MD4.UPDATE data` (R129). -/
def execMd4Update (data : List Byte) (s : State) : Host.Outcome State Fault Refusal :=
  s.ifAdmitted .md4 .update ((s.setMd4 (absorb md4Alg s.md4 data)).respond .ok [])

/-- `MD4.FINISH` (R130). -/
def execMd4Finish (s : State) : Host.Outcome State Fault Refusal :=
  s.ifAdmitted .md4 .finish ((s.setMd4 (finishEngine md4Alg s.md4)).respond .ok [])

/-- `MD4.GETHASH` (R131, R114). -/
def execMd4GetHash (s : State) : Host.Outcome State Fault Refusal :=
  s.ifAdmitted .md4 .getHash (s.respond .ok s.md4.dig.toList)

end Sys2Proof.Machine
end

