-- ==== Sys2Proof/Machine/Md5.lean ====
section
/-! DEFINITION. The MD5 engine (42_md5.md): constants, MD5_Compress and the four commands. -/

namespace Sys2Proof.Machine

/-- `IV_MD5` (R141). -/
def md5Iv : Hash4 := { h0 := 0x67452301, h1 := 0xEFCDAB89, h2 := 0x98BADCFE, h3 := 0x10325476 }

/-- Round 1 (R142). -/
def md5F (x y z : Word) : Word := (x &&& y) ||| (~~~x &&& z)

/-- Round 2 (R142). MD5's G is not MD4's. -/
def md5G (x y z : Word) : Word := (x &&& z) ||| (y &&& ~~~z)

/-- Round 3 (R142). -/
def md5H (x y z : Word) : Word := x ^^^ y ^^^ z

/-- Round 4 (R142). -/
def md5I (x y z : Word) : Word := y ^^^ (x ||| ~~~z)

/-- The function of a round, the rounds numbered 1 to 4 (R142). -/
def md5Fun : Nat → Word → Word → Word → Word
  | 1 => md5F
  | 2 => md5G
  | 3 => md5H
  | _ => md5I

/-- `SR_r`, used cyclically (R144). -/
def md5SR : Nat → List Nat
  | 1 => [7, 12, 17, 22]
  | 2 => [5, 9, 14, 20]
  | 3 => [4, 11, 16, 23]
  | _ => [6, 10, 15, 21]

/-- `T[0 .. 15]` (R145). -/
def md5T1 : List Word :=
  [0xD76AA478, 0xE8C7B756, 0x242070DB, 0xC1BDCEEE,
   0xF57C0FAF, 0x4787C62A, 0xA8304613, 0xFD469501,
   0x698098D8, 0x8B44F7AF, 0xFFFF5BB1, 0x895CD7BE,
   0x6B901122, 0xFD987193, 0xA679438E, 0x49B40821]

/-- `T[16 .. 31]` (R145). -/
def md5T2 : List Word :=
  [0xF61E2562, 0xC040B340, 0x265E5A51, 0xE9B6C7AA,
   0xD62F105D, 0x02441453, 0xD8A1E681, 0xE7D3FBC8,
   0x21E1CDE6, 0xC33707D6, 0xF4D50D87, 0x455A14ED,
   0xA9E3E905, 0xFCEFA3F8, 0x676F02D9, 0x8D2A4C8A]

/-- `T[32 .. 47]` (R145). -/
def md5T3 : List Word :=
  [0xFFFA3942, 0x8771F681, 0x6D9D6122, 0xFDE5380C,
   0xA4BEEA44, 0x4BDECFA9, 0xF6BB4B60, 0xBEBFBC70,
   0x289B7EC6, 0xEAA127FA, 0xD4EF3085, 0x04881D05,
   0xD9D4D039, 0xE6DB99E5, 0x1FA27CF8, 0xC4AC5665]

/-- `T[48 .. 63]` (R145). -/
def md5T4 : List Word :=
  [0xF4292244, 0x432AFF97, 0xAB9423A7, 0xFC93A039,
   0x655B59C3, 0x8F0CCC92, 0xFFEFF47D, 0x85845DD1,
   0x6FA87E4F, 0xFE2CE6E0, 0xA3014314, 0x4E0811A1,
   0xF7537E82, 0xBD3AF235, 0x2AD7D2BB, 0xEB86D391]

/-- `T[0..63]`, the 64 additive constants (R145). -/
def md5T : List Word := md5T1 ++ md5T2 ++ md5T3 ++ md5T4

/-- `KX[j]` of a round, the message-word order (R146). -/
def md5KX : Nat → List Nat
  | 1 => [0, 1, 2, 3, 4, 5, 6, 7, 8, 9, 10, 11, 12, 13, 14, 15]
  | 2 => [1, 6, 11, 0, 5, 10, 15, 4, 9, 14, 3, 8, 13, 2, 7, 12]
  | 3 => [5, 8, 11, 14, 1, 4, 7, 10, 13, 0, 3, 6, 9, 12, 15, 2]
  | _ => [0, 7, 14, 5, 12, 3, 10, 1, 8, 15, 6, 13, 4, 11, 2, 9]

/-- Step `j` of MD5_Compress over the working words a, b, c, d (R147): `b` is added after the
rotation. -/
def md5Step (x : List Word) (w : Hash4) (j : Nat) : Hash4 :=
  let r := j / 16 + 1
  let f := md5Fun r w.h1 w.h2 w.h3
  let t := w.h1 + rotl (w.h0 + f + x.getD ((md5KX r).getD (j % 16) 0) 0 + md5T.getD j 0)
    ((md5SR r).getD (j % 4) 0)
  { h0 := w.h3, h1 := t, h2 := w.h1, h3 := w.h2 }

/-- `MD5_Compress(Hin, block)` (R147): 64 steps, then the feed-forward. -/
def md5Compress (hin : Hash4) (block : Block) : Hash4 :=
  let out := (List.range 64).foldl (md5Step (wordsLe block)) hin
  { h0 := hin.h0 + out.h0, h1 := hin.h1 + out.h1, h2 := hin.h2 + out.h2, h3 := hin.h3 + out.h3 }

/-- MD5's parameters (R110); its serialisation is exactly MD4's (R148). -/
def md5Alg : Algorithm Hash4 16 :=
  { engine := .md5, iv := md5Iv, zero := zeroHash4, compress := md5Compress
    enc64 := encLe64, ser := serLe4 }

/-- `MD5.RESET` (R149). -/
def execMd5Reset (s : State) : Host.Outcome State Fault Refusal :=
  s.ifAdmitted .md5 .reset ((s.setMd5 (resetEngineState md5Alg s.md5)).respond .ok [])

/-- `MD5.UPDATE data` (R150). -/
def execMd5Update (data : List Byte) (s : State) : Host.Outcome State Fault Refusal :=
  s.ifAdmitted .md5 .update ((s.setMd5 (absorb md5Alg s.md5 data)).respond .ok [])

/-- `MD5.FINISH` (R151). -/
def execMd5Finish (s : State) : Host.Outcome State Fault Refusal :=
  s.ifAdmitted .md5 .finish ((s.setMd5 (finishEngine md5Alg s.md5)).respond .ok [])

/-- `MD5.GETHASH` (R152, R114). -/
def execMd5GetHash (s : State) : Host.Outcome State Fault Refusal :=
  s.ifAdmitted .md5 .getHash (s.respond .ok s.md5.dig.toList)

end Sys2Proof.Machine
end

