-- ==== Sys2Proof/Machine/Sha1.lean ====
section
/-! DEFINITION. The SHA-1 engine (43_sha1.md): constants, SHA1_Compress and the four commands. -/

namespace Sys2Proof.Machine

/-- `IV_SHA1` (R161). -/
def sha1Iv : Hash5 :=
  { h0 := 0x67452301, h1 := 0xEFCDAB89, h2 := 0x98BADCFE, h3 := 0x10325476, h4 := 0xC3D2E1F0 }

/-- `Ch` (R162). -/
def sha1Ch (x y z : Word) : Word := (x &&& y) ||| (~~~x &&& z)

/-- `Parity` (R162). -/
def sha1Parity (x y z : Word) : Word := x ^^^ y ^^^ z

/-- `Maj` (R162). -/
def sha1Maj (x y z : Word) : Word := (x &&& y) ||| (x &&& z) ||| (y &&& z)

/-- The function of a round, the rounds numbered 1 to 4 (R162). -/
def sha1Fun : Nat → Word → Word → Word → Word
  | 1 => sha1Ch
  | 2 => sha1Parity
  | 3 => sha1Maj
  | _ => sha1Parity

/-- The constant of a round (R162). -/
def sha1K : Nat → Word
  | 1 => 0x5A827999
  | 2 => 0x6ED9EBA1
  | 3 => 0x8F1BBCDC
  | _ => 0xCA62C1D6

/-- The next schedule word, appended to those before it: word `i` with `i` the number of words
already there, of the taps i-3, i-8, i-14, i-16 (R164, C2). -/
def sha1Extend (w : List Word) : List Word :=
  let i := w.length
  w ++ [rotl (w.getD (i - 3) 0 ^^^ w.getD (i - 8) 0 ^^^ w.getD (i - 14) 0 ^^^ w.getD (i - 16) 0) 1]

/-- `k` further schedule words. -/
def sha1Extends : Nat → List Word → List Word
  | 0, w => w
  | k + 1, w => sha1Extends k (sha1Extend w)

/-- The schedule `w[0..79]` of a block (R163, R164). -/
def sha1Schedule (block : Block) : List Word := sha1Extends 64 (wordsBe block)

/-- Step `i` over the working words a, b, c, d, e (R165). -/
def sha1Step (w : List Word) (v : Hash5) (i : Nat) : Hash5 :=
  let r := i / 20 + 1
  let t := rotl v.h0 5 + sha1Fun r v.h1 v.h2 v.h3 + v.h4 + sha1K r + w.getD i 0
  { h0 := t, h1 := v.h0, h2 := rotl v.h1 30, h3 := v.h2, h4 := v.h3 }

/-- `SHA1_Compress(Hin, block)` (R166): 80 steps, then the feed-forward. -/
def sha1Compress (hin : Hash5) (block : Block) : Hash5 :=
  let out := (List.range 80).foldl (sha1Step (sha1Schedule block)) hin
  { h0 := hin.h0 + out.h0, h1 := hin.h1 + out.h1, h2 := hin.h2 + out.h2, h3 := hin.h3 + out.h3
    h4 := hin.h4 + out.h4 }

/-- Five words, big-endian, H[0] first (R53, R167). -/
def serBe5 (h : Hash5) : Bytes 20 :=
  takeBytes 20 (encBe32 h.h0 ++ encBe32 h.h1 ++ encBe32 h.h2 ++ encBe32 h.h3 ++ encBe32 h.h4)

/-- Five zero words (R104). -/
def zeroHash5 : Hash5 := { h0 := 0, h1 := 0, h2 := 0, h3 := 0, h4 := 0 }

/-- SHA-1's parameters (R110). -/
def sha1Alg : Algorithm Hash5 20 :=
  { engine := .sha1, iv := sha1Iv, zero := zeroHash5, compress := sha1Compress
    enc64 := encBe64, ser := serBe5 }

/-- `SHA1.RESET` (R168). -/
def execSha1Reset (s : State) : Host.Outcome State Fault Refusal :=
  s.ifAdmitted .sha1 .reset ((s.setSha1 (resetEngineState sha1Alg s.sha1)).respond .ok [])

/-- `SHA1.UPDATE data` (R169). -/
def execSha1Update (data : List Byte) (s : State) : Host.Outcome State Fault Refusal :=
  s.ifAdmitted .sha1 .update ((s.setSha1 (absorb sha1Alg s.sha1 data)).respond .ok [])

/-- `SHA1.FINISH` (R170). -/
def execSha1Finish (s : State) : Host.Outcome State Fault Refusal :=
  s.ifAdmitted .sha1 .finish ((s.setSha1 (finishEngine sha1Alg s.sha1)).respond .ok [])

/-- `SHA1.GETHASH` (R171, R114). -/
def execSha1GetHash (s : State) : Host.Outcome State Fault Refusal :=
  s.ifAdmitted .sha1 .getHash (s.respond .ok s.sha1.dig.toList)

end Sys2Proof.Machine
end

