-- ==== Sys2Proof/Machine/Dispatch.lean ====
section
/-! DEFINITION. One arm per command (30_encoding.md R75): each calls the meaning of its rule. -/

namespace Sys2Proof.Machine

def exec (i : Instr) (s : State) : Host.Outcome State Fault Refusal :=
  match i with
  | .md4Reset => Sys2Proof.Machine.execMd4Reset s
  | .md4Update data => Sys2Proof.Machine.execMd4Update data s
  | .md4Finish => Sys2Proof.Machine.execMd4Finish s
  | .md4GetHash => Sys2Proof.Machine.execMd4GetHash s
  | .md5Reset => Sys2Proof.Machine.execMd5Reset s
  | .md5Update data => Sys2Proof.Machine.execMd5Update data s
  | .md5Finish => Sys2Proof.Machine.execMd5Finish s
  | .md5GetHash => Sys2Proof.Machine.execMd5GetHash s
  | .sha1Reset => Sys2Proof.Machine.execSha1Reset s
  | .sha1Update data => Sys2Proof.Machine.execSha1Update data s
  | .sha1Finish => Sys2Proof.Machine.execSha1Finish s
  | .sha1GetHash => Sys2Proof.Machine.execSha1GetHash s
  | .crc32Reset => Sys2Proof.Machine.execCrc32Reset s
  | .crc32Update data => Sys2Proof.Machine.execCrc32Update data s
  | .crc32Finish => Sys2Proof.Machine.execCrc32Finish s
  | .crc32GetHash => Sys2Proof.Machine.execCrc32GetHash s

end Sys2Proof.Machine
end

