-- ==== Sys2Proof/Machine/Step.lean ====
section
/-! DEFINITION. One step of the unit: the next complete command of the stream is consumed and
executed, atomically (20_memory.md R56, R59; 30_encoding.md R70, R78). -/

namespace Sys2Proof.Machine

/-- One step. A complete command is consumed and executed; an illegal command word is consumed and
rejected (R76, R233); with no complete command the unit waits as it is (R78, R272, U11, log 6). -/
def step (s : State) : Host.Outcome State Fault Refusal :=
  match decode s.input with
  | .command i rest => exec i (s.setInput rest)
  | .illegal cw rest => .next ((s.setInput rest).illegalCommand cw)
  | .incomplete => .next s

/-- The host places an opcode-table row's command at the front of the stream (log 5). -/
def State.withFetchWord (s : State) (nbits w : Nat) : State :=
  s.setInput (tableBytes nbits w ++ s.input)

end Sys2Proof.Machine
end

