-- ==== Sys2Proof/Machine/Sequences.lean ====
section
/-! DEFINITION. What a host does with the unit (45_host_sequences.md): command sequences run at the
transaction level (30_encoding.md R70), fan-out (R204), and the ed2k chunking, driven by chunks or by
I/O blocks, root hash and result record (R207 to R211), which bind a host and not the unit (R5). -/

namespace Sys2Proof.Machine

/-- Run commands in the order the host issues them (R59, R70), stopping at a stop. -/
def runCommands : List Instr → State → Host.Outcome State Fault Refusal
  | [], s => .next s
  | i :: is, s =>
    match exec i s with
    | .next t => runCommands is t
    | .fault r => .fault r
    | .refused r => .refused r

/-- One block of a file to each engine the host uses (R204). -/
def fanOutCommands (engines : List Engine) (block : List Byte) : List Instr :=
  engines.map fun e => Instr.ofFields e .update block

/-- `Digest_E(data)` of any engine as a byte sequence (R112, R201). -/
def digestBytes : Engine → List Byte → List Byte
  | .md4, data => (digestOf md4Alg data).toList
  | .md5, data => (digestOf md5Alg data).toList
  | .sha1, data => (digestOf sha1Alg data).toList
  | .crc32, data => (crcDigestOf data).toList

/-- The ed2k chunk size C in bytes (R9, R207, C4). -/
def ed2kChunkSize : Nat := 9728000

/-- The chunks of a file for a chunk size of at least one byte (R207). -/
def chunksOf (c : Nat) (data : List Byte) : List (List Byte) := piecesOf c data.length data

/-- The chunk hash list (R208). -/
def chunkHashes (c : Nat) (data : List Byte) : List (List Byte) :=
  (chunksOf c data).map (digestBytes .md4)

/-- The root hash (R209): the one chunk's digest verbatim, or MD4 over the chunk digests in order.
A file of size zero has none: it is an error of the host (R207). -/
def ed2kRoot (c : Nat) (data : List Byte) : Option (List Byte) :=
  match chunkHashes c data with
  | [] => none
  | [d] => some d
  | ds => some (digestBytes .md4 ds.flatten)

/-- The commands of the root hash once all chunks are done: none for a single chunk, whose digest is
the root, and otherwise HASH of the concatenated chunk digests (R209). -/
def rootCommands (c : Nat) (data : List Byte) : List Instr :=
  if (chunksOf c data).length ≤ 1 then [] else hashCommands .md4 (chunkHashes c data).flatten

/-- The commands that compute the root hash on the one MD4 engine: HASH of each chunk in order, and
with more than one chunk HASH of the concatenated chunk digests (R208, R209). -/
def ed2kCommands (c : Nat) (data : List Byte) : List Instr :=
  (chunksOf c data).flatMap (hashCommands .md4) ++ rootCommands c data

/-- How many bytes the current chunk still takes when `pos` bytes of the file have been sent: a
full chunk before the first byte, and none at a boundary, where the next byte opens a chunk
(R207, R208). -/
def chunkRoom (c pos : Nat) : Nat := if pos = 0 then c else (c - pos % c) % c

/-- The UPDATEs of a part of an I/O block: none where the part is empty (R208). -/
def partCommands (part : List Byte) : List Instr :=
  if part.isEmpty then [] else updateCommands .md4 part

/-- What the host does at a chunk boundary: FINISH, GETHASH, RESET (R208). -/
def boundaryCommands : List Instr := [.md4Finish, .md4GetHash, .md4Reset]

/-- The commands for one I/O block when the current chunk still takes `room` bytes (R208): the part
before the boundary goes to the old chunk, and each part after a boundary to a new one. One block
may contain several boundaries. -/
def blockCommands (c room : Nat) (block : List Byte) : List Instr :=
  partCommands (block.take room) ++
    (piecesOf c block.length (block.drop room)).flatMap fun part =>
      boundaryCommands ++ partCommands part

/-- The commands for the I/O blocks of a file from the offset `pos` on, in order (R203, R208). -/
def blocksCommands (c : Nat) : Nat → List (List Byte) → List Instr
  | _, [] => []
  | pos, block :: blocks =>
    blockCommands c (chunkRoom c pos) block ++ blocksCommands c (pos + block.length) blocks

/-- The commands that compute the chunk hash list of a file that arrives in I/O blocks of any
lengths (R208): nothing for a file of size zero, for which the host never starts the unit (R207). -/
def chunkStreamCommands (c : Nat) (blocks : List (List Byte)) : List Instr :=
  if blocks.flatten.isEmpty then []
  else .md4Reset :: (blocksCommands c 0 blocks ++ [.md4Finish, .md4GetHash])

/-- The commands that compute the root hash of a file that arrives in I/O blocks (R208, R209). -/
def ed2kBlockCommands (c : Nat) (blocks : List (List Byte)) : List Instr :=
  chunkStreamCommands c blocks ++ rootCommands c blocks.flatten

/-- Write a digest into its slot, or leave the slot untouched if it was not requested (R210). -/
def writeSlot (record : Bytes 56) (off : Nat) (digest : Option (List Byte)) : Bytes 56 :=
  match digest with
  | none => record
  | some d => memWrite record off d

/-- The host's 56-byte result record (R210): root at 0, CRC32 at 16, MD5 at 20, SHA-1 at 36. -/
def resultRecord (old : Bytes 56) (root : List Byte) (crc md5 sha1 : Option (List Byte)) :
    Bytes 56 :=
  writeSlot (writeSlot (writeSlot (writeSlot old 0 (some root)) 16 crc) 20 md5) 36 sha1

end Sys2Proof.Machine
end

