-- ==== Sys2Proof/Safety.lean ====
section
/-! DEFINITION. What claims about the unit are stated in: the run without rejections
(60_exceptions.md R244), what a command leaves alone (10_state.md R32), the invariants of the
accumulator (40_block_buffer.md R106, R113), and which registers the spec gives a value (R34, R35). -/

namespace Sys2Proof.Machine

/-- No rejection has been recorded in the run: the premise R244 asks of every claim about what the
original software does (log 4). -/
def State.safe (s : State) : Bool := s.fault.isNone

/-- The step as a model that stops at rejections takes it (R244): it faults as soon as a rejection
is recorded, and otherwise it is the unit's step. -/
def contractStep (s : State) : Host.Outcome State Fault Refusal :=
  match step s with
  | .next t =>
    match t.fault with
    | none => .next t
    | some f => .fault f
  | .fault f => .fault f
  | .refused r => .refused r

/-- No register of any engine changes (R232). -/
def registersKept (s t : State) : Prop :=
  t.md4 = s.md4 ∧ t.md5 = s.md5 ∧ t.sha1 = s.sha1 ∧ t.crc32 = s.crc32

/-- No register of an engine other than `e` changes (R32). -/
def othersKept (e : Engine) (s t : State) : Prop :=
  (e ≠ .md4 → t.md4 = s.md4) ∧ (e ≠ .md5 → t.md5 = s.md5) ∧
  (e ≠ .sha1 → t.sha1 = s.sha1) ∧ (e ≠ .crc32 → t.crc32 = s.crc32)

/-- The frame of an accepted command of engine `e` that answers `digest` (R32, R80): the other
engines, the rest of the stream and the fault record are kept, and one OK response is sent. -/
def acceptedFrame (e : Engine) (digest : List Byte) (s t : State) : Prop :=
  othersKept e s t ∧ t.input = s.input ∧ t.fault = s.fault ∧
  t.responses = s.responses ++ [{ status := .ok, digest := digest }]

/-- A command rejected for its engine's phase (R232): nothing changes but the response and the
model's record of the first rejection. -/
def protocolRejected (i : Instr) (s t : State) : Prop :=
  registersKept s t ∧ t.input = s.input ∧
  t.responses = s.responses ++ [{ status := .errProtocol, digest := [] }] ∧
  t.fault = some (s.fault.getD (.protocolError i.engine i.op))

/-- The working state of a block engine is all zero bits (R113). -/
def zeroizedBy {σ : Type} {l : Nat} (zero : σ) (e : BlockEngine σ l) : Prop :=
  e.h = zero ∧ e.len = 0 ∧ e.buf = zeroBytes 64

/-- Every FINISHED block engine is zeroized (R31 c, R34, R113). -/
def finishedAreZero (s : State) : Prop :=
  (s.md4.ph = .finished → zeroizedBy zeroHash4 s.md4) ∧
  (s.md5.ph = .finished → zeroizedBy zeroHash4 s.md5) ∧
  (s.sha1.ph = .finished → zeroizedBy zeroHash5 s.sha1)

/-- A READY engine has absorbed the byte sequence `msg` since its RESET: the accumulator invariant
in functional form (R106). -/
def absorbed {σ : Type} {l : Nat} (alg : Algorithm σ l) (e : BlockEngine σ l) (msg : List Byte) :
    Prop :=
  e.ph = .ready ∧ e.len = payloadLen msg ∧ e.h = foldBlocks alg alg.iv msg ∧
  pending e = msg.drop (64 * (msg.length / 64))

/-- Every READY engine's registers are those of some message (R106, R189). -/
def readyHoldMessages (s : State) : Prop :=
  (s.md4.ph = .ready → ∃ msg, absorbed md4Alg s.md4 msg) ∧
  (s.md5.ph = .ready → ∃ msg, absorbed md5Alg s.md5 msg) ∧
  (s.sha1.ph = .ready → ∃ msg, absorbed sha1Alg s.sha1 msg) ∧
  (s.crc32.ph = .ready → ∃ msg, s.crc32.crc = crcFold crcInit msg)

/-- Two block engines agree on every register the spec gives a value in their phase (R34, R35):
nothing but the phase in UNINIT, the state words, the counter and the waiting bytes in READY, and
all but the free counter in FINISHED. -/
def blockAgree {σ : Type} {l : Nat} (a b : BlockEngine σ l) : Prop :=
  a.ph = b.ph ∧
  (a.ph = .ready → a.h = b.h ∧ a.len = b.len ∧ pending a = pending b) ∧
  (a.ph = .finished → a.h = b.h ∧ a.len = b.len ∧ a.buf = b.buf ∧ a.dig = b.dig)

/-- The same for the CRC32 engine (R28, R34). -/
def crcAgree (a b : CrcEngine) : Prop :=
  a.ph = b.ph ∧ (a.ph = .ready → a.crc = b.crc) ∧ (a.ph = .finished → a.dig = b.dig)

/-- Two states agree on everything the spec gives a value: the specified registers, the command
stream, the responses and the fault record. -/
def specAgree (s t : State) : Prop :=
  blockAgree s.md4 t.md4 ∧ blockAgree s.md5 t.md5 ∧ blockAgree s.sha1 t.sha1 ∧
  crcAgree s.crc32 t.crc32 ∧ s.input = t.input ∧ s.responses = t.responses ∧ s.fault = t.fault

/-- The byte at offset `i` of a buffer after Absorb_E of `data` at `index`, by the cases of R101:
without a completed block the payload lies from `index` on; with one the tail lies from 0 on, above
it the bytes that completed a buffered block stay, and every other byte is kept. -/
def updatedByte (buf : Bytes 64) (index : Nat) (data : List Byte) (i : Nat) : Byte :=
  if index + data.length < 64 then
    if index ≤ i ∧ i < index + data.length then data.getD (i - index) 0 else byteAt buf i
  else
    let tail := (index + data.length) % 64
    if i < tail then data.getD (data.length - tail + i) 0
    else if index ≠ 0 ∧ index ≤ i then data.getD (i - index) 0
    else byteAt buf i

end Sys2Proof.Machine
end

