-- ==== Sys2Proof/Certificates/Slice0/Obligations.lean ====
section
/-! DEFINITION. The statements for the provers, one for each entry of OBLIGATIONS.json. -/

open Sys2Proof Sys2Proof.Machine

/-- Decoding the bytes of any well-formed command, whatever follows them, gives that command and
what follows (R70, R71, R73, R74, R75). -/
def Obligations.DecodeOfEncode : Prop :=
  ∀ (i : Instr) (rest : List Byte), i.wellFormed = true →
    decode (encode i ++ rest) = .command i rest

/-- A decoded command is well formed and its encoding is exactly the bytes consumed (R70, R71,
R73, R74, R75, R78). -/
def Obligations.EncodeOfDecode : Prop :=
  ∀ (bs : List Byte) (i : Instr) (rest : List Byte), decode bs = .command i rest →
    i.wellFormed = true ∧ bs = encode i ++ rest

/-- The worked encodings written out from the spec decode to the commands they stand for (R75,
R82). -/
def Obligations.WorkedEncodings : Prop :=
  decode [0x00] = .command .md4Reset [] ∧
  decode [0x01, 0x03, 0x00, 0x00, 0x00, 0x61, 0x62, 0x63] =
    .command (.md4Update [0x61, 0x62, 0x63]) [] ∧
  decode [0x02] = .command .md4Finish [] ∧
  decode [0x03] = .command .md4GetHash [] ∧
  decode [0x07] = .command .md5GetHash [] ∧
  decode [0x09, 0x00, 0x00, 0x00, 0x00] = .command (.sha1Update []) [] ∧
  decode ([0x0D, 0x00, 0x01, 0x00, 0x00] ++ pat 256) = .command (.crc32Update (pat 256)) [] ∧
  decode [0x10] = .illegal 0x10 []

/-- A word 0x10 to 0xFF is one byte long, changes no register and is answered 01 (its record in
fault: the model's, log 4, log 18); every word below 0x10 is legal (R76, R233, R244). -/
def Obligations.IllegalWordsAreRejected : Prop :=
  (∀ (s : State) (cw : Byte) (rest : List Byte), 16 ≤ cw.toNat → s.input = cw :: rest →
    ∃ t, step s = .next t ∧ registersKept s t ∧ t.input = rest ∧
      t.responses = s.responses ++ [{ status := .errIllegal, digest := [] }] ∧
      t.responses.getLast?.map Response.bytes = some [0x01] ∧
      t.fault = some (s.fault.getD (.illegalCommand cw))) ∧
  (∀ (cw : Byte) (rest after : List Byte), cw.toNat < 16 → decode (cw :: rest) ≠ .illegal cw after)

/-- Every byte string begins with exactly one complete command of the stated length or is a proper
prefix of one, on which the unit waits (R78). -/
def Obligations.DecodingIsTotal : Prop :=
  ∀ bs : List Byte,
    (∃ i rest taken, decode bs = .command i rest ∧ bs = taken ++ rest ∧
      taken.length = if i.op = .update then 5 + i.data.length else 1) ∨
    (∃ cw rest, decode bs = .illegal cw rest ∧ bs = cw :: rest ∧ 16 ≤ cw.toNat) ∨
    (decode bs = .incomplete ∧
      (∃ more i, more ≠ [] ∧ decode (bs ++ more) = .command i []) ∧
      ∀ s : State, s.input = bs → step s = .next s)

/-- When the stream begins with a complete command, the step is the command's execution with its
bytes consumed (R56, R59, R70). -/
def Obligations.StepRunsDecodedCommand : Prop :=
  ∀ (s : State) (i : Instr) (rest : List Byte), decode s.input = .command i rest →
    step s = exec i (s.setInput rest)

/-- The step leaves the state as it is exactly when no complete command has arrived (the model's
stutter, log 6) (R78, R272). -/
def Obligations.WaitsExactlyWhenIncomplete : Prop :=
  ∀ s : State, step s = .next s ↔ decode s.input = .incomplete

/-- MD4.RESET is accepted in every phase and leaves READY, the initialization vector and a zero
counter (R128). -/
def Obligations.Md4ResetCreatesState : Prop :=
  encode .md4Reset = [0x00] ∧
  ∀ s : State, ∃ t, exec .md4Reset s = .next t ∧ t.md4.ph = .ready ∧
    t.md4.h =
      { h0 := 0x67452301, h1 := 0xEFCDAB89, h2 := 0x98BADCFE, h3 := 0x10325476 } ∧
    t.md4.len = 0 ∧ pending t.md4 = [] ∧ acceptedFrame .md4 [] s t ∧
    (∃ u, exec .md4Reset t = .next u ∧ u.md4.ph = .ready ∧ u.md4.h = t.md4.h ∧ u.md4.len = 0) ∧
    (∃ u, exec .md4GetHash t = .next u ∧ protocolRejected .md4GetHash t u)

/-- MD5.RESET is accepted in every phase and leaves READY, the initialization vector and a zero
counter (R149). -/
def Obligations.Md5ResetCreatesState : Prop :=
  encode .md5Reset = [0x04] ∧
  ∀ s : State, ∃ t, exec .md5Reset s = .next t ∧ t.md5.ph = .ready ∧
    t.md5.h =
      { h0 := 0x67452301, h1 := 0xEFCDAB89, h2 := 0x98BADCFE, h3 := 0x10325476 } ∧
    t.md5.len = 0 ∧ pending t.md5 = [] ∧ acceptedFrame .md5 [] s t ∧
    (∃ u, exec .md5Reset t = .next u ∧ u.md5.ph = .ready ∧ u.md5.h = t.md5.h ∧ u.md5.len = 0) ∧
    (∃ u, exec .md5GetHash t = .next u ∧ protocolRejected .md5GetHash t u)

/-- SHA1.RESET is accepted in every phase and leaves READY, the initialization vector and a zero
counter (R168). -/
def Obligations.Sha1ResetCreatesState : Prop :=
  encode .sha1Reset = [0x08] ∧
  ∀ s : State, ∃ t, exec .sha1Reset s = .next t ∧ t.sha1.ph = .ready ∧
    t.sha1.h =
      { h0 := 0x67452301, h1 := 0xEFCDAB89, h2 := 0x98BADCFE, h3 := 0x10325476
        h4 := 0xC3D2E1F0 } ∧
    t.sha1.len = 0 ∧ pending t.sha1 = [] ∧ acceptedFrame .sha1 [] s t ∧
    (∃ u, exec .sha1Reset t = .next u ∧ u.sha1.ph = .ready ∧ u.sha1.h = t.sha1.h ∧ u.sha1.len = 0) ∧
    (∃ u, exec .sha1GetHash t = .next u ∧ protocolRejected .sha1GetHash t u)

/-- MD4.UPDATE in READY compresses the whole blocks of waiting bytes and payload and keeps the
tail; in another phase it is rejected (R102, R129). -/
def Obligations.Md4UpdateAbsorbs : Prop :=
  (∀ data, encode (.md4Update data) = 0x01 :: (leBytes 4 data.length ++ data)) ∧
  ∀ (s : State) (data : List Byte),
    (s.md4.ph = .ready → ∃ t, exec (.md4Update data) s = .next t ∧ t.md4.ph = .ready ∧
      t.md4.len = s.md4.len + BitVec.ofNat 64 data.length ∧
      t.md4.h = compressBlocks md4Alg ((s.md4.len.toNat % 64 + data.length) / 64) s.md4.h
        (pending s.md4 ++ data) ∧
      pending t.md4 =
        (pending s.md4 ++ data).drop (64 * ((s.md4.len.toNat % 64 + data.length) / 64)) ∧
      t.md4.len.toNat % 64 = (s.md4.len.toNat % 64 + data.length) % 64 ∧
      t.md4.dig = s.md4.dig ∧ acceptedFrame .md4 [] s t) ∧
    (s.md4.ph ≠ .ready → ∃ t, exec (.md4Update data) s = .next t ∧
      protocolRejected (.md4Update data) s t)

/-- MD5.UPDATE in READY compresses the whole blocks of waiting bytes and payload and keeps the
tail; in another phase it is rejected (R102, R150). -/
def Obligations.Md5UpdateAbsorbs : Prop :=
  (∀ data, encode (.md5Update data) = 0x05 :: (leBytes 4 data.length ++ data)) ∧
  ∀ (s : State) (data : List Byte),
    (s.md5.ph = .ready → ∃ t, exec (.md5Update data) s = .next t ∧ t.md5.ph = .ready ∧
      t.md5.len = s.md5.len + BitVec.ofNat 64 data.length ∧
      t.md5.h = compressBlocks md5Alg ((s.md5.len.toNat % 64 + data.length) / 64) s.md5.h
        (pending s.md5 ++ data) ∧
      pending t.md5 =
        (pending s.md5 ++ data).drop (64 * ((s.md5.len.toNat % 64 + data.length) / 64)) ∧
      t.md5.len.toNat % 64 = (s.md5.len.toNat % 64 + data.length) % 64 ∧
      t.md5.dig = s.md5.dig ∧ acceptedFrame .md5 [] s t) ∧
    (s.md5.ph ≠ .ready → ∃ t, exec (.md5Update data) s = .next t ∧
      protocolRejected (.md5Update data) s t)

/-- SHA1.UPDATE in READY compresses the whole blocks of waiting bytes and payload and keeps the
tail; in another phase it is rejected (R102, R169). -/
def Obligations.Sha1UpdateAbsorbs : Prop :=
  (∀ data, encode (.sha1Update data) = 0x09 :: (leBytes 4 data.length ++ data)) ∧
  ∀ (s : State) (data : List Byte),
    (s.sha1.ph = .ready → ∃ t, exec (.sha1Update data) s = .next t ∧ t.sha1.ph = .ready ∧
      t.sha1.len = s.sha1.len + BitVec.ofNat 64 data.length ∧
      t.sha1.h = compressBlocks sha1Alg ((s.sha1.len.toNat % 64 + data.length) / 64) s.sha1.h
        (pending s.sha1 ++ data) ∧
      pending t.sha1 =
        (pending s.sha1 ++ data).drop (64 * ((s.sha1.len.toNat % 64 + data.length) / 64)) ∧
      t.sha1.len.toNat % 64 = (s.sha1.len.toNat % 64 + data.length) % 64 ∧
      t.sha1.dig = s.sha1.dig ∧ acceptedFrame .sha1 [] s t) ∧
    (s.sha1.ph ≠ .ready → ∃ t, exec (.sha1Update data) s = .next t ∧
      protocolRejected (.sha1Update data) s t)

/-- MD4.FINISH in READY latches the digest of the padded stream, zeroizes and becomes FINISHED; in
another phase it is rejected (R113, R130). -/
def Obligations.Md4FinishLatchesAndZeroizes : Prop :=
  encode .md4Finish = [0x02] ∧
  ∀ s : State,
    (s.md4.ph = .ready → ∃ t, exec .md4Finish s = .next t ∧ t.md4.ph = .finished ∧
      t.md4.dig = serLe4 (foldBlocks md4Alg s.md4.h (pending s.md4 ++
        0x80 :: (List.replicate ((64 + 55 - s.md4.len.toNat % 64) % 64) 0 ++
          encLe64 (s.md4.len * 8)))) ∧
      t.md4.h = { h0 := 0, h1 := 0, h2 := 0, h3 := 0 } ∧ t.md4.len = 0 ∧
      (∀ i, i < 64 → byteAt t.md4.buf i = 0) ∧ acceptedFrame .md4 [] s t) ∧
    (s.md4.ph ≠ .ready → ∃ t, exec .md4Finish s = .next t ∧ protocolRejected .md4Finish s t)

/-- MD5.FINISH in READY latches the digest of the padded stream, zeroizes and becomes FINISHED; in
another phase it is rejected (R113, R151). -/
def Obligations.Md5FinishLatchesAndZeroizes : Prop :=
  encode .md5Finish = [0x06] ∧
  ∀ s : State,
    (s.md5.ph = .ready → ∃ t, exec .md5Finish s = .next t ∧ t.md5.ph = .finished ∧
      t.md5.dig = serLe4 (foldBlocks md5Alg s.md5.h (pending s.md5 ++
        0x80 :: (List.replicate ((64 + 55 - s.md5.len.toNat % 64) % 64) 0 ++
          encLe64 (s.md5.len * 8)))) ∧
      t.md5.h = { h0 := 0, h1 := 0, h2 := 0, h3 := 0 } ∧ t.md5.len = 0 ∧
      (∀ i, i < 64 → byteAt t.md5.buf i = 0) ∧ acceptedFrame .md5 [] s t) ∧
    (s.md5.ph ≠ .ready → ∃ t, exec .md5Finish s = .next t ∧ protocolRejected .md5Finish s t)

/-- SHA1.FINISH in READY latches the digest of the padded stream, zeroizes and becomes FINISHED;
in another phase it is rejected (R113, R170). -/
def Obligations.Sha1FinishLatchesAndZeroizes : Prop :=
  encode .sha1Finish = [0x0A] ∧
  ∀ s : State,
    (s.sha1.ph = .ready → ∃ t, exec .sha1Finish s = .next t ∧ t.sha1.ph = .finished ∧
      t.sha1.dig = serBe5 (foldBlocks sha1Alg s.sha1.h (pending s.sha1 ++
        0x80 :: (List.replicate ((64 + 55 - s.sha1.len.toNat % 64) % 64) 0 ++
          encBe64 (s.sha1.len * 8)))) ∧
      t.sha1.h = { h0 := 0, h1 := 0, h2 := 0, h3 := 0, h4 := 0 } ∧ t.sha1.len = 0 ∧
      (∀ i, i < 64 → byteAt t.sha1.buf i = 0) ∧ acceptedFrame .sha1 [] s t) ∧
    (s.sha1.ph ≠ .ready → ∃ t, exec .sha1Finish s = .next t ∧ protocolRejected .sha1Finish s t)

/-- CRC32.RESET is accepted in every phase and leaves READY and the register 0xFFFFFFFF (R185). -/
def Obligations.Crc32ResetSetsRegister : Prop :=
  encode .crc32Reset = [0x0C] ∧
  ∀ s : State, ∃ t, exec .crc32Reset s = .next t ∧ t.crc32.ph = .ready ∧
    t.crc32.crc = 0xFFFFFFFF ∧ acceptedFrame .crc32 [] s t ∧
    (∃ u, exec .crc32Reset t = .next u ∧ u.crc32.ph = .ready ∧ u.crc32.crc = 0xFFFFFFFF)

/-- CRC32.UPDATE in READY steps the register over the payload bytes in ascending order; in another
phase it is rejected (R186). -/
def Obligations.Crc32UpdateFoldsBytes : Prop :=
  (∀ data, encode (.crc32Update data) = 0x0D :: (leBytes 4 data.length ++ data)) ∧
  ∀ (s : State) (data : List Byte),
    (s.crc32.ph = .ready → ∃ t, exec (.crc32Update data) s = .next t ∧ t.crc32.ph = .ready ∧
      t.crc32.crc = data.foldl crcStep s.crc32.crc ∧ t.crc32.dig = s.crc32.dig ∧
      (data = [] → t.crc32 = s.crc32) ∧ acceptedFrame .crc32 [] s t) ∧
    (s.crc32.ph ≠ .ready → ∃ t, exec (.crc32Update data) s = .next t ∧
      protocolRejected (.crc32Update data) s t)

/-- CRC32.FINISH in READY latches crc XOR 0xFFFFFFFF, most significant byte first; in another
phase it is rejected (R184, R187). -/
def Obligations.Crc32FinishLatchesValue : Prop :=
  encode .crc32Finish = [0x0E] ∧
  ∀ s : State,
    (s.crc32.ph = .ready → ∃ t, exec .crc32Finish s = .next t ∧ t.crc32.ph = .finished ∧
      t.crc32.dig.toList =
        [(s.crc32.crc ^^^ 0xFFFFFFFF).extractLsb' 24 8, (s.crc32.crc ^^^ 0xFFFFFFFF).extractLsb' 16 8,
         (s.crc32.crc ^^^ 0xFFFFFFFF).extractLsb' 8 8, (s.crc32.crc ^^^ 0xFFFFFFFF).extractLsb' 0 8] ∧
      acceptedFrame .crc32 [] s t) ∧
    (s.crc32.ph ≠ .ready → ∃ t, exec .crc32Finish s = .next t ∧
      protocolRejected .crc32Finish s t)

/-- MD4.GETHASH in FINISHED answers OK and the 16 latch bytes and writes nothing, again and again;
in another phase it is rejected (R131). -/
def Obligations.Md4GetHashReturnsLatch : Prop :=
  encode .md4GetHash = [0x03] ∧
  ∀ s : State,
    (s.md4.ph = .finished → ∃ t, exec .md4GetHash s = .next t ∧ registersKept s t ∧
      s.md4.dig.toList.length = 16 ∧ acceptedFrame .md4 s.md4.dig.toList s t ∧
      (∃ u, exec .md4GetHash t = .next u ∧ registersKept s u ∧
        acceptedFrame .md4 s.md4.dig.toList t u)) ∧
    (s.md4.ph ≠ .finished → ∃ t, exec .md4GetHash s = .next t ∧
      protocolRejected .md4GetHash s t)

/-- MD5.GETHASH in FINISHED answers OK and the 16 latch bytes and writes nothing, again and again;
in another phase it is rejected (R152). -/
def Obligations.Md5GetHashReturnsLatch : Prop :=
  encode .md5GetHash = [0x07] ∧
  ∀ s : State,
    (s.md5.ph = .finished → ∃ t, exec .md5GetHash s = .next t ∧ registersKept s t ∧
      s.md5.dig.toList.length = 16 ∧ acceptedFrame .md5 s.md5.dig.toList s t ∧
      (∃ u, exec .md5GetHash t = .next u ∧ registersKept s u ∧
        acceptedFrame .md5 s.md5.dig.toList t u)) ∧
    (s.md5.ph ≠ .finished → ∃ t, exec .md5GetHash s = .next t ∧
      protocolRejected .md5GetHash s t)

/-- SHA1.GETHASH in FINISHED answers OK and the 20 latch bytes and writes nothing, again and
again; in another phase it is rejected (R171). -/
def Obligations.Sha1GetHashReturnsLatch : Prop :=
  encode .sha1GetHash = [0x0B] ∧
  ∀ s : State,
    (s.sha1.ph = .finished → ∃ t, exec .sha1GetHash s = .next t ∧ registersKept s t ∧
      s.sha1.dig.toList.length = 20 ∧ acceptedFrame .sha1 s.sha1.dig.toList s t ∧
      (∃ u, exec .sha1GetHash t = .next u ∧ registersKept s u ∧
        acceptedFrame .sha1 s.sha1.dig.toList t u)) ∧
    (s.sha1.ph ≠ .finished → ∃ t, exec .sha1GetHash s = .next t ∧
      protocolRejected .sha1GetHash s t)

/-- CRC32.GETHASH in FINISHED answers OK and the 4 latch bytes and writes nothing, again and
again; in another phase it is rejected (R188). -/
def Obligations.Crc32GetHashReturnsLatch : Prop :=
  encode .crc32GetHash = [0x0F] ∧
  ∀ s : State,
    (s.crc32.ph = .finished → ∃ t, exec .crc32GetHash s = .next t ∧ registersKept s t ∧
      s.crc32.dig.toList.length = 4 ∧ acceptedFrame .crc32 s.crc32.dig.toList s t ∧
      (∃ u, exec .crc32GetHash t = .next u ∧ registersKept s u ∧
        acceptedFrame .crc32 s.crc32.dig.toList t u)) ∧
    (s.crc32.ph ≠ .finished → ∃ t, exec .crc32GetHash s = .next t ∧
      protocolRejected .crc32GetHash s t)

/-- Every command is accepted or rejected by its engine's phase alone, as the admission table says
(R232, R235). -/
def Obligations.AdmissionTable : Prop :=
  ∀ (i : Instr) (s : State), ∃ t, exec i s = .next t ∧
    match i.op, s.phaseOf i.engine with
    | .reset, .uninit => ∃ d, acceptedFrame i.engine d s t
    | .reset, .ready => ∃ d, acceptedFrame i.engine d s t
    | .reset, .finished => ∃ d, acceptedFrame i.engine d s t
    | .update, .uninit => protocolRejected i s t
    | .update, .ready => ∃ d, acceptedFrame i.engine d s t
    | .update, .finished => protocolRejected i s t
    | .finish, .uninit => protocolRejected i s t
    | .finish, .ready => ∃ d, acceptedFrame i.engine d s t
    | .finish, .finished => protocolRejected i s t
    | .getHash, .uninit => protocolRejected i s t
    | .getHash, .ready => protocolRejected i s t
    | .getHash, .finished => ∃ d, acceptedFrame i.engine d s t

/-- The phase after every command is the one the state machine of the accumulator gives (R27,
R115, R235). -/
def Obligations.PhaseMachine : Prop :=
  ∀ (i : Instr) (s t : State), exec i s = .next t → ∀ e : Engine,
    t.phaseOf e =
      if e = i.engine ∧ i.op = .reset then .ready
      else if e = i.engine ∧ i.op = .finish ∧ s.phaseOf e = .ready then .finished
      else s.phaseOf e

/-- A command changes no other engine's registers, and what it leaves in its own engine's depends
on those alone; GETHASH writes none, UPDATE no phase or latch (R32, R60, R232). -/
def Obligations.CommandsTouchOnlyTheirEngine : Prop :=
  ∀ (i : Instr) (s t : State), exec i s = .next t →
    othersKept i.engine s t ∧ t.input = s.input ∧
    (i.op = .getHash → registersKept s t) ∧
    (i.op = .update → (∀ e : Engine, t.phaseOf e = s.phaseOf e ∧ t.digOf e = s.digOf e)) ∧
    ∀ s' t', exec i s' = .next t' →
      (i.engine = .md4 → s'.md4 = s.md4 → t'.md4 = t.md4) ∧
      (i.engine = .md5 → s'.md5 = s.md5 → t'.md5 = t.md5) ∧
      (i.engine = .sha1 → s'.sha1 = s.sha1 → t'.sha1 = t.sha1) ∧
      (i.engine = .crc32 → s'.crc32 = s.crc32 → t'.crc32 = t.crc32)

/-- An accepted UPDATE of a block engine stores in its buffer where Absorb_E writes and nowhere
else (R13, R101, R109). -/
def Obligations.UpdateStoresInBuffer : Prop :=
  (∀ (s t : State) (data : List Byte), s.md4.ph = .ready → exec (.md4Update data) s = .next t →
    ∀ i, i < 64 → byteAt t.md4.buf i =
      updatedByte s.md4.buf (s.md4.len.toNat % 64) data i) ∧
  (∀ (s t : State) (data : List Byte), s.md5.ph = .ready → exec (.md5Update data) s = .next t →
    ∀ i, i < 64 → byteAt t.md5.buf i =
      updatedByte s.md5.buf (s.md5.len.toNat % 64) data i) ∧
  (∀ (s t : State) (data : List Byte), s.sha1.ph = .ready → exec (.sha1Update data) s = .next t →
    ∀ i, i < 64 → byteAt t.sha1.buf i =
      updatedByte s.sha1.buf (s.sha1.len.toNat % 64) data i)

/-- Commands to different engines in either order leave the same registers and give the same two
responses (R60). -/
def Obligations.EnginesCommute : Prop :=
  ∀ (i j : Instr) (s : State), i.engine ≠ j.engine →
    ∃ a b c d r q, exec i s = .next a ∧ exec j a = .next b ∧ exec j s = .next c ∧
      exec i c = .next d ∧ registersKept b d ∧ d.input = b.input ∧
      a.responses = s.responses ++ [r] ∧ b.responses = s.responses ++ [r, q] ∧
      c.responses = s.responses ++ [q] ∧ d.responses = s.responses ++ [q, r] ∧
      d.fault.isSome = b.fault.isSome

/-- An UPDATE with an empty payload in READY changes no register and is answered OK (R108). -/
def Obligations.EmptyUpdateIsNoOp : Prop :=
  ∀ s : State,
    (s.md4.ph = .ready → exec (.md4Update []) s = .next (s.respond .ok [])) ∧
    (s.md5.ph = .ready → exec (.md5Update []) s = .next (s.respond .ok [])) ∧
    (s.sha1.ph = .ready → exec (.sha1Update []) s = .next (s.respond .ok [])) ∧
    (s.crc32.ph = .ready → exec (.crc32Update []) s = .next (s.respond .ok []))

/-- Absorbing x and then y leaves every specified register as absorbing x ++ y does (R107). -/
def Obligations.UpdatesConcatenate : Prop :=
  (∀ (σ : Type) (l : Nat) (alg : Algorithm σ l) (e : BlockEngine σ l) (x y : List Byte),
    (absorb alg (absorb alg e x) y).ph = (absorb alg e (x ++ y)).ph ∧
    (absorb alg (absorb alg e x) y).len = (absorb alg e (x ++ y)).len ∧
    (absorb alg (absorb alg e x) y).h = (absorb alg e (x ++ y)).h ∧
    pending (absorb alg (absorb alg e x) y) = pending (absorb alg e (x ++ y)) ∧
    (absorb alg (absorb alg e x) y).dig = (absorb alg e (x ++ y)).dig) ∧
  (∀ (c : CrcEngine) (x y : List Byte), crcUpdate (crcUpdate c x) y = crcUpdate c (x ++ y))

/-- Reset_E establishes and Absorb_E preserves the accumulator invariant in functional form
(R106). -/
def Obligations.AccumulatorInvariant : Prop :=
  ∀ (σ : Type) (l : Nat) (alg : Algorithm σ l),
    (∀ e : BlockEngine σ l, absorbed alg (resetEngineState alg e) []) ∧
    (∀ (e : BlockEngine σ l) (msg data : List Byte), absorbed alg e msg →
      absorbed alg (absorb alg e data) (msg ++ data)) ∧
    (∀ (e : BlockEngine σ l) (msg : List Byte), absorbed alg e msg → msg.length < 2 ^ 64 →
      e.len.toNat = msg.length ∧ e.h = compressBlocks alg (msg.length / 64) alg.iv msg ∧
      e.buf.toList.take (msg.length % 64) = msg.drop (64 * (msg.length / 64)))

/-- Finish_E of an engine that has absorbed S latches Digest_E(S), and the padded message is a
whole number of blocks (R112). -/
def Obligations.FinishGivesDigest : Prop :=
  ∀ (σ : Type) (l : Nat) (alg : Algorithm σ l) (e : BlockEngine σ l) (msg : List Byte),
    absorbed alg e msg → msg.length < 2 ^ 61 →
    let k := (64 + 55 - msg.length % 64) % 64
    let padded := msg ++ 0x80 :: (List.replicate k 0 ++ alg.enc64 (BitVec.ofNat 64 (8 * msg.length)))
    (finishEngine alg e).dig = alg.ser (foldBlocks alg alg.iv padded) ∧
    digestOf alg msg = (finishEngine alg e).dig ∧
    ((∀ v, (alg.enc64 v).length = 8) →
      padded.length = msg.length + 1 + k + 8 ∧ padded.length % 64 = 0)

/-- Finish_E compresses one block when index <= 55 and two when index >= 56, with the stated
contents (R105). -/
def Obligations.PaddingBlocks : Prop :=
  ∀ (σ : Type) (l : Nat) (alg : Algorithm σ l) (e : BlockEngine σ l),
    alg.enc64 = encLe64 ∨ alg.enc64 = encBe64 →
    let index := e.len.toNat % 64
    let field := alg.enc64 (e.len * 8)
    pending (absorb alg e (padding alg e.len)) = [] ∧
    (index ≤ 55 → (padding alg e.len).length = 64 - index ∧
      (finishEngine alg e).dig = alg.ser (alg.compress e.h
        (takeBytes 64 (pending e ++ 0x80 :: (List.replicate (55 - index) 0 ++ field))))) ∧
    (56 ≤ index → (padding alg e.len).length = 128 - index ∧
      (finishEngine alg e).dig = alg.ser (alg.compress (alg.compress e.h
        (takeBytes 64 (pending e ++ 0x80 :: List.replicate (63 - index) 0)))
        (takeBytes 64 (List.replicate 56 0 ++ field))))

/-- HASH of a message, cut into pieces where one UPDATE cannot carry it, answers the message's
digest on any engine and from any state (R201). -/
def Obligations.HashSequence : Prop :=
  ∀ (e : Engine) (s : State) (data : List Byte), data.length < 2 ^ 61 →
    hashCommands e data = Instr.ofFields e .reset [] ::
      ((payloadPieces data).map (Instr.ofFields e .update) ++
        [Instr.ofFields e .finish [], Instr.ofFields e .getHash []]) ∧
    (payloadPieces data).flatten = data ∧
    (data.length < 2 ^ 32 → payloadPieces data = [data]) ∧
    (∀ i ∈ hashCommands e data, i.wellFormed = true) ∧
    digestBytes .crc32 data = encBe32 (data.foldl crcStep 0xFFFFFFFF ^^^ 0xFFFFFFFF) ∧
    ∃ t, runCommands (hashCommands e data) s = .next t ∧ othersKept e s t ∧
      t.input = s.input ∧ t.fault = s.fault ∧
      t.responses = s.responses ++
        List.replicate ((payloadPieces data).length + 2) { status := .ok, digest := [] } ++
        [{ status := .ok, digest := digestBytes e data }]

/-- However a message is split over UPDATEs, on any engine and from any state, GETHASH answers the
digest of its concatenation (R107, R189, R201). -/
def Obligations.DigestIgnoresSplitting : Prop :=
  ∀ (e : Engine) (s : State) (pieces : List (List Byte)), pieces.flatten.length < 2 ^ 61 →
    ∃ t, runCommands (piecewiseCommands e pieces) s = .next t ∧ othersKept e s t ∧
      t.input = s.input ∧ t.fault = s.fault ∧
      t.responses = s.responses ++
        List.replicate (pieces.length + 2) { status := .ok, digest := [] } ++
        [{ status := .ok, digest := digestBytes e pieces.flatten }]

/-- The bytes of a HASH at the front of the stream, stepped four times, are consumed and answered
with the digest (R70, R78, R80, R201). -/
def Obligations.ByteStreamHash : Prop :=
  ∀ (e : Engine) (s : State) (data rest : List Byte), data.length < 2 ^ 32 →
    s.input = encodeAll (hashCommands e data) ++ rest →
    ∃ t, Host.Core.run Sys2Proof.core 4 s = .next t ∧ othersKept e s t ∧ t.input = rest ∧
      t.responses = s.responses ++
        [{ status := .ok, digest := [] }, { status := .ok, digest := [] },
         { status := .ok, digest := [] }, { status := .ok, digest := digestBytes e data }]

/-- Every step keeps the invariant that a FINISHED block engine has zero state words, counter and
buffer (R31, R34, R113). -/
def Obligations.FinishedEnginesStayZero : Prop :=
  ∀ s t : State, finishedAreZero s → step s = .next t → finishedAreZero t

/-- Every step keeps the invariant that a READY engine's registers are those of some absorbed
message (R29, R106, R189). -/
def Obligations.ReadyEnginesHoldMessages : Prop :=
  ∀ s t : State, readyHoldMessages s → step s = .next t → readyHoldMessages t

/-- The state after hardware reset has every engine UNINIT, meets both invariants and has no
rejection recorded (R34, R260). -/
def Obligations.ResetMeetsInvariants : Prop :=
  (∀ e : Engine, State.reset.phaseOf e = .uninit) ∧ finishedAreZero State.reset ∧
  readyHoldMessages State.reset ∧ State.reset.responses = [] ∧ State.reset.safe = true

/-- Steps from states that agree on every specified register send the same responses and agree
again (R25, R34, R35). -/
def Obligations.UnspecifiedRegistersAreUnobservable : Prop :=
  ∀ s t s' : State, specAgree s t → step s = .next s' →
    ∃ t', step t = .next t' ∧ specAgree s' t'

/-- No state, payload or byte stream makes the unit stop: every step answers a next state (R230,
R272). -/
def Obligations.StepAlwaysAnswers : Prop :=
  ∀ s : State, ∃ t, step s = .next t

/-- Every command is answered by one response of the stated form, and no other status byte is ever
sent (R80). -/
def Obligations.OneResponsePerCommand : Prop :=
  (∀ (s t : State) (i : Instr) (rest : List Byte), decode s.input = .command i rest →
    step s = .next t → ∃ r, t.responses = s.responses ++ [r] ∧
      if admits i.op (s.phaseOf i.engine) = false then r.bytes = [0x02]
      else if i.op = .getHash then r.bytes = 0x00 :: s.digOf i.engine
      else r.bytes = [0x00]) ∧
  (∀ (s t : State) (cw : Byte) (rest : List Byte), decode s.input = .illegal cw rest →
    step s = .next t → ∃ r, t.responses = s.responses ++ [r] ∧ r.bytes = [0x01]) ∧
  (∀ s : State, (s.digOf .md4).length = 16 ∧ (s.digOf .md5).length = 16 ∧
    (s.digOf .sha1).length = 20 ∧ (s.digOf .crc32).length = 4) ∧
  (∀ r : Response, r.bytes.head? = some 0x00 ∨ r.bytes.head? = some 0x01 ∨
    r.bytes.head? = some 0x02)

/-- The first rejection of a run is recorded when its status is sent and kept for the rest of the
run (the model's record, log 4) (R244). -/
def Obligations.FirstRejectionIsKept : Prop :=
  ∀ s t : State, step s = .next t →
    (∀ f, s.fault = some f → t.fault = some f) ∧
    (s.fault = none → (t.fault ≠ none ↔
      ∃ r, t.responses = s.responses ++ [r] ∧ r.status ≠ .ok))

/-- The stopping view of a step faults at exactly the rejected commands and is the unit's step
otherwise (log 4) (R233, R235, R244). -/
def Obligations.ContractStepStopsAtRejections : Prop :=
  ∀ s : State, s.safe = true →
    match decode s.input with
    | .command i _ =>
      if admits i.op (s.phaseOf i.engine) = true then contractStep s = step s
      else contractStep s = .fault (.protocolError i.engine i.op)
    | .illegal cw _ => contractStep s = .fault (.illegalCommand cw)
    | .incomplete => contractStep s = .next s

/-- After hardware reset every engine is UNINIT and only RESET is accepted; a command it strikes
is lost without a response (R76, R260, R261, R263). -/
def Obligations.HardwareResetCreatesNothing : Prop :=
  ∀ s : State,
    (∀ e : Engine, s.hardwareReset.phaseOf e = .uninit) ∧
    (∀ i : Instr, i.op ≠ .reset → ∃ t, exec i s.hardwareReset = .next t ∧
      protocolRejected i s.hardwareReset t) ∧
    s.hardwareReset.input = s.input ∧ s.hardwareReset.responses = [] ∧
    s.hardwareReset.safe = true ∧
    (∀ i rest, decode s.input = .command i rest →
      s.hardwareResetDuring = s.hardwareReset.setInput rest) ∧
    (∀ cw rest, decode s.input = .illegal cw rest → s.input = cw :: rest ∧
      s.hardwareResetDuring = s.hardwareReset.setInput rest) ∧
    (decode s.input = .incomplete → s.hardwareResetDuring = s.hardwareReset)

/-- The four bytes 00 04 08 0c put all four engines in READY, each answered 00, from any state
(R263). -/
def Obligations.MinimalBoot : Prop :=
  ∀ (s : State) (rest : List Byte), s.input = [0x00, 0x04, 0x08, 0x0C] ++ rest →
    ∃ t, Host.Core.run Sys2Proof.core 4 s = .next t ∧ t.input = rest ∧
      (∀ e : Engine, t.phaseOf e = .ready) ∧
      t.md4.h = md4Iv ∧ t.md4.len = 0 ∧ t.md5.h = md5Iv ∧ t.md5.len = 0 ∧
      t.sha1.h = sha1Iv ∧ t.sha1.len = 0 ∧ t.crc32.crc = 0xFFFFFFFF ∧
      t.responses = s.responses ++ List.replicate 4 { status := .ok, digest := [] } ∧
      Response.bytes { status := .ok, digest := [] } = [0x00]

/-- The round functions of MD4, MD5 and SHA-1 are, bit by bit, what their rules give, and SHA-1's
table gives each step its function and constant (R122, R142, R162). -/
def Obligations.RoundFunctionsBitByBit : Prop :=
  (∀ (x y z : Word) (i : Nat), i < 32 →
    (md4F x y z).getLsbD i = (if x.getLsbD i then y.getLsbD i else z.getLsbD i) ∧
    (md4G x y z).getLsbD i = decide (2 ≤
      (x.getLsbD i).toNat + (y.getLsbD i).toNat + (z.getLsbD i).toNat) ∧
    (md4H x y z).getLsbD i = (x.getLsbD i ^^ y.getLsbD i ^^ z.getLsbD i) ∧
    (md5F x y z).getLsbD i = (if x.getLsbD i then y.getLsbD i else z.getLsbD i) ∧
    (md5G x y z).getLsbD i = (if z.getLsbD i then x.getLsbD i else y.getLsbD i) ∧
    (md5H x y z).getLsbD i = (x.getLsbD i ^^ y.getLsbD i ^^ z.getLsbD i) ∧
    (md5I x y z).getLsbD i = (y.getLsbD i ^^ (x.getLsbD i || !z.getLsbD i)) ∧
    (sha1Ch x y z).getLsbD i = (if x.getLsbD i then y.getLsbD i else z.getLsbD i) ∧
    (sha1Parity x y z).getLsbD i = (x.getLsbD i ^^ y.getLsbD i ^^ z.getLsbD i) ∧
    (sha1Maj x y z).getLsbD i = decide (2 ≤
      (x.getLsbD i).toNat + (y.getLsbD i).toNat + (z.getLsbD i).toNat)) ∧
  (∀ i : Nat, i < 80 →
    sha1Fun (i / 20 + 1) = (if i < 20 then sha1Ch else if i < 40 then sha1Parity
      else if i < 60 then sha1Maj else sha1Parity) ∧
    sha1K (i / 20 + 1) = (if i < 20 then 0x5A827999 else if i < 40 then 0x6ED9EBA1
      else if i < 60 then 0x8F1BBCDC else 0xCA62C1D6))

/-- Every step of MD4 and its feed-forward are as its tables and MD4_Compress give, and the first
four are the usual listing a, d, c, b (R123, R124, R125, R126). -/
def Obligations.Md4StepsUnrolled : Prop :=
  (∀ (x : List Word) (a b c d : Word) (j : Nat), j < 48 →
    let i := j % 16
    let f := if j < 16 then md4F b c d else if j < 32 then md4G b c d else md4H b c d
    let k : Word := if j < 16 then 0x00000000 else if j < 32 then 0x5A827999 else 0x6ED9EBA1
    let n := if j < 16 then [3, 7, 11, 19] else if j < 32 then [3, 5, 9, 13] else [3, 9, 11, 15]
    let ord := if j < 16 then i else if j < 32 then 4 * (i % 4) + i / 4
      else 8 * (i % 2) + 4 * (i / 2 % 2) + 2 * (i / 4 % 2) + i / 8
    md4Step x { h0 := a, h1 := b, h2 := c, h3 := d } j =
      { h0 := d, h1 := rotl (a + f + x.getD ord 0 + k) (n.getD (j % 4) 0), h2 := b, h3 := c }) ∧
  md4Ord 1 = [0, 1, 2, 3, 4, 5, 6, 7, 8, 9, 10, 11, 12, 13, 14, 15] ∧
  md4Ord 2 = [0, 4, 8, 12, 1, 5, 9, 13, 2, 6, 10, 14, 3, 7, 11, 15] ∧
  md4Ord 3 = [0, 8, 4, 12, 2, 10, 6, 14, 1, 9, 5, 13, 3, 11, 7, 15] ∧
  (∀ (block : Block) (i : Nat), i < 16 → (wordsLe block).getD i 0 =
    le32 (byteAt block (4 * i)) (byteAt block (4 * i + 1)) (byteAt block (4 * i + 2))
      (byteAt block (4 * i + 3))) ∧
  (∀ (hin : Hash4) (block : Block),
    let out := (List.range 48).foldl (md4Step (wordsLe block)) hin
    md4Alg.compress hin block =
      { h0 := hin.h0 + out.h0, h1 := hin.h1 + out.h1, h2 := hin.h2 + out.h2
        h3 := hin.h3 + out.h3 }) ∧
  (∀ (x : List Word) (a b c d : Word),
    let a' := rotl (a + md4F b c d + x.getD 0 0) 3
    let d' := rotl (d + md4F a' b c + x.getD 1 0) 7
    let c' := rotl (c + md4F d' a' b + x.getD 2 0) 11
    let b' := rotl (b + md4F c' d' a' + x.getD 3 0) 19
    [0, 1, 2, 3].foldl (md4Step x) { h0 := a, h1 := b, h2 := c, h3 := d } =
      { h0 := a', h1 := b', h2 := c', h3 := d' })

/-- Every step of MD5 and its feed-forward are as its tables and MD5_Compress give, and the first
two are the unrolled listing (R143, R144, R145, R146, R147). -/
def Obligations.Md5StepsUnrolled : Prop :=
  (∀ (x : List Word) (a b c d : Word) (j : Nat), j < 64 →
    let f := if j < 16 then md5F b c d else if j < 32 then md5G b c d
      else if j < 48 then md5H b c d else md5I b c d
    let n := if j < 16 then [7, 12, 17, 22] else if j < 32 then [5, 9, 14, 20]
      else if j < 48 then [4, 11, 16, 23] else [6, 10, 15, 21]
    let kx := if j < 16 then j else if j < 32 then (5 * j + 1) % 16
      else if j < 48 then (3 * j + 5) % 16 else 7 * j % 16
    md5Step x { h0 := a, h1 := b, h2 := c, h3 := d } j =
      { h0 := d, h1 := b + rotl (a + f + x.getD kx 0 + md5T.getD j 0) (n.getD (j % 4) 0)
        h2 := b, h3 := c }) ∧
  (md5T : List Word) =
      [0xD76AA478, 0xE8C7B756, 0x242070DB, 0xC1BDCEEE,
       0xF57C0FAF, 0x4787C62A, 0xA8304613, 0xFD469501,
       0x698098D8, 0x8B44F7AF, 0xFFFF5BB1, 0x895CD7BE,
       0x6B901122, 0xFD987193, 0xA679438E, 0x49B40821] ++
      [0xF61E2562, 0xC040B340, 0x265E5A51, 0xE9B6C7AA,
       0xD62F105D, 0x02441453, 0xD8A1E681, 0xE7D3FBC8,
       0x21E1CDE6, 0xC33707D6, 0xF4D50D87, 0x455A14ED,
       0xA9E3E905, 0xFCEFA3F8, 0x676F02D9, 0x8D2A4C8A] ++
      [0xFFFA3942, 0x8771F681, 0x6D9D6122, 0xFDE5380C,
       0xA4BEEA44, 0x4BDECFA9, 0xF6BB4B60, 0xBEBFBC70,
       0x289B7EC6, 0xEAA127FA, 0xD4EF3085, 0x04881D05,
       0xD9D4D039, 0xE6DB99E5, 0x1FA27CF8, 0xC4AC5665] ++
      [0xF4292244, 0x432AFF97, 0xAB9423A7, 0xFC93A039,
       0x655B59C3, 0x8F0CCC92, 0xFFEFF47D, 0x85845DD1,
       0x6FA87E4F, 0xFE2CE6E0, 0xA3014314, 0x4E0811A1,
       0xF7537E82, 0xBD3AF235, 0x2AD7D2BB, 0xEB86D391] ∧
  (∀ (block : Block) (i : Nat), i < 16 → (wordsLe block).getD i 0 =
    le32 (byteAt block (4 * i)) (byteAt block (4 * i + 1)) (byteAt block (4 * i + 2))
      (byteAt block (4 * i + 3))) ∧
  (∀ (hin : Hash4) (block : Block),
    let out := (List.range 64).foldl (md5Step (wordsLe block)) hin
    md5Alg.compress hin block =
      { h0 := hin.h0 + out.h0, h1 := hin.h1 + out.h1, h2 := hin.h2 + out.h2
        h3 := hin.h3 + out.h3 }) ∧
  (∀ (x : List Word) (a b c d : Word),
    let a' := b + rotl (a + md5F b c d + x.getD 0 0 + 0xD76AA478) 7
    let d' := a' + rotl (d + md5F a' b c + x.getD 1 0 + 0xE8C7B756) 12
    [0, 1].foldl (md5Step x) { h0 := a, h1 := b, h2 := c, h3 := d } =
      { h0 := c, h1 := d', h2 := a', h3 := b })

/-- SHA-1's schedule is 16 big-endian words and the recurrence with taps i-3, i-8, i-14, i-16, and
its steps and feed-forward are as SHA1_Compress gives (R163, R164, R165, R166). -/
def Obligations.Sha1ScheduleRecurrence : Prop :=
  (∀ block : Block, (sha1Schedule block).length = 80 ∧
    (∀ i, i < 16 → (sha1Schedule block).getD i 0 =
      be32 (byteAt block (4 * i)) (byteAt block (4 * i + 1)) (byteAt block (4 * i + 2))
        (byteAt block (4 * i + 3))) ∧
    (∀ i, 16 ≤ i → i < 80 → (sha1Schedule block).getD i 0 =
      rotl ((sha1Schedule block).getD (i - 3) 0 ^^^ (sha1Schedule block).getD (i - 8) 0 ^^^
        (sha1Schedule block).getD (i - 14) 0 ^^^ (sha1Schedule block).getD (i - 16) 0) 1)) ∧
  (∀ (w : List Word) (a b c d e : Word) (i : Nat), i < 80 →
    let f := if i < 20 then sha1Ch b c d else if i < 40 then sha1Parity b c d
      else if i < 60 then sha1Maj b c d else sha1Parity b c d
    let k : Word := if i < 20 then 0x5A827999 else if i < 40 then 0x6ED9EBA1
      else if i < 60 then 0x8F1BBCDC else 0xCA62C1D6
    sha1Step w { h0 := a, h1 := b, h2 := c, h3 := d, h4 := e } i =
      { h0 := rotl a 5 + f + e + k + w.getD i 0, h1 := a, h2 := rotl b 30, h3 := c, h4 := d }) ∧
  (∀ (hin : Hash5) (block : Block),
    let out := (List.range 80).foldl (sha1Step (sha1Schedule block)) hin
    sha1Alg.compress hin block =
      { h0 := hin.h0 + out.h0, h1 := hin.h1 + out.h1, h2 := hin.h2 + out.h2
        h3 := hin.h3 + out.h3, h4 := hin.h4 + out.h4 })

/-- CRC32_Step is eight conditional shifts of the register XOR the byte, and equals its table-
driven form (R182). -/
def Obligations.CrcTableForm : Prop :=
  ∀ (crc : Word) (byte : Byte),
    (crcShift crc = if crc.toNat % 2 = 1 then (crc >>> 1) ^^^ 0xEDB88320 else crc >>> 1) ∧
    crcStep crc byte = crcShift (crcShift (crcShift (crcShift (crcShift (crcShift (crcShift
      (crcShift (crc ^^^ byte.setWidth 32)))))))) ∧
    crcStep crc byte =
      crcShifts 8 ((crc ^^^ byte.setWidth 32) &&& 0xFF) ^^^ (crc >>> 8)

/-- The byte-order helpers are the sums and byte fields their rule gives (R12). -/
def Obligations.ByteOrderHelpers : Prop :=
  (∀ b0 b1 b2 b3 : Byte,
    (le32 b0 b1 b2 b3).toNat =
      b0.toNat + 2 ^ 8 * b1.toNat + 2 ^ 16 * b2.toNat + 2 ^ 24 * b3.toNat ∧
    (be32 b0 b1 b2 b3).toNat =
      2 ^ 24 * b0.toNat + 2 ^ 16 * b1.toNat + 2 ^ 8 * b2.toNat + b3.toNat ∧
    encLe32 (le32 b0 b1 b2 b3) = [b0, b1, b2, b3] ∧
    encBe32 (be32 b0 b1 b2 b3) = [b0, b1, b2, b3]) ∧
  (∀ (v : Word) (i : Nat), i < 4 → (encLe32 v).length = 4 ∧
    ((encLe32 v).getD i 0).toNat = v.toNat / 2 ^ (8 * i) % 256 ∧
    encBe32 v = (encLe32 v).reverse) ∧
  (∀ (v : DWord) (i : Nat), i < 8 → (encLe64 v).length = 8 ∧
    ((encLe64 v).getD i 0).toNat = v.toNat / 2 ^ (8 * i) % 256 ∧
    encBe64 v = (encLe64 v).reverse)

/-- rotl moves bit i to bit (i + n) mod 32 for every rotation amount below 32 (R11). -/
def Obligations.RotlRotates : Prop :=
  ∀ (x : Word) (n i : Nat), 0 < n → n < 32 → i < 32 →
    (rotl x n).getLsbD ((i + n) % 32) = x.getLsbD i

/-- The length field at offsets 56 to 63 is words 14 and 15: low then high in MD4 and MD5, high
then low in SHA-1 (R51, R52). -/
def Obligations.LengthFieldWords : Prop :=
  ∀ (before : List Byte) (v : DWord), before.length = 56 →
    (wordsLe (takeBytes 64 (before ++ encLe64 v))).getD 14 0 = v.extractLsb' 0 32 ∧
    (wordsLe (takeBytes 64 (before ++ encLe64 v))).getD 15 0 = v.extractLsb' 32 32 ∧
    (wordsBe (takeBytes 64 (before ++ encBe64 v))).getD 14 0 = v.extractLsb' 32 32 ∧
    (wordsBe (takeBytes 64 (before ++ encBe64 v))).getD 15 0 = v.extractLsb' 0 32

/-- MD4 and MD5 serialise their four words little-endian, SHA-1 its five big-endian, H[0] first,
and their length fields likewise (R127, R148, R167). -/
def Obligations.DigestSerialisation : Prop :=
  (∀ h : Hash4, (md4Alg.ser h).toList = encLe32 h.h0 ++ encLe32 h.h1 ++ encLe32 h.h2 ++ encLe32 h.h3 ∧
    (md5Alg.ser h).toList = encLe32 h.h0 ++ encLe32 h.h1 ++ encLe32 h.h2 ++ encLe32 h.h3) ∧
  (∀ h : Hash5, (sha1Alg.ser h).toList =
    encBe32 h.h0 ++ encBe32 h.h1 ++ encBe32 h.h2 ++ encBe32 h.h3 ++ encBe32 h.h4) ∧
  md4Alg.enc64 = encLe64 ∧ md5Alg.enc64 = encLe64 ∧ sha1Alg.enc64 = encBe64 ∧
  (md4Alg.ser { h0 := 0xE0CFD631, h1 := 0x31E96AD1, h2 := 0xD7593CB7, h3 := 0xC089C0E0 }).toList =
    [0x31, 0xD6, 0xCF, 0xE0, 0xD1, 0x6A, 0xE9, 0x31, 0xB7, 0x3C, 0x59, 0xD7, 0xE0, 0xC0, 0x89,
     0xC0] ∧
  (md5Alg.ser { h0 := 0xD98C1DD4, h1 := 0x04B2008F, h2 := 0x980980E9, h3 := 0x7E42F8EC }).toList =
    [0xD4, 0x1D, 0x8C, 0xD9, 0x8F, 0x00, 0xB2, 0x04, 0xE9, 0x80, 0x09, 0x98, 0xEC, 0xF8, 0x42,
     0x7E] ∧
  (sha1Alg.ser { h0 := 0xDA39A3EE, h1 := 0x5E6B4B0D, h2 := 0x3255BFEF, h3 := 0x95601890
                 h4 := 0xAFD80709 }).toList =
    [0xDA, 0x39, 0xA3, 0xEE, 0x5E, 0x6B, 0x4B, 0x0D, 0x32, 0x55, 0xBF, 0xEF, 0x95, 0x60, 0x18,
     0x90, 0xAF, 0xD8, 0x07, 0x09]

/-- A file of at most one chunk has its MD4 as root; of one chunk and a byte, MD4 of the two chunk
digests; an empty file none (the model's form, log 16) (R207, R211). -/
def Obligations.Ed2kRootOfOneAndTwoChunks : Prop :=
  (∀ data : List Byte, 0 < data.length → data.length ≤ ed2kChunkSize →
    ed2kRoot ed2kChunkSize data = some (digestBytes .md4 data)) ∧
  (∀ data : List Byte, data.length = ed2kChunkSize + 1 →
    ed2kRoot ed2kChunkSize data = some (digestBytes .md4
      (digestBytes .md4 (data.take ed2kChunkSize) ++ digestBytes .md4 (data.drop ed2kChunkSize)))) ∧
  (∀ d₁ d₂ : List Byte, (digestBytes .md4 d₁ ++ digestBytes .md4 d₂).length = 32) ∧
  ed2kRoot ed2kChunkSize [] = none

/-- The host's commands over the one MD4 engine, from any state, end with the file's root hash as
the last response (R207, R208, R209). -/
def Obligations.Ed2kCommandsGiveRoot : Prop :=
  ∀ (c : Nat) (data : List Byte) (s : State), 0 < c → data ≠ [] → data.length < 2 ^ 61 →
    (chunksOf c data).length = (data.length + c - 1) / c ∧
    (∀ i, i < (chunksOf c data).length →
      (chunksOf c data)[i]? = some ((data.drop (i * c)).take c)) ∧
    (∀ i, i + 1 < (chunksOf c data).length → ((data.drop (i * c)).take c).length = c) ∧
    (∀ chunk ∈ chunksOf c data, 0 < chunk.length ∧ chunk.length ≤ c) ∧
    (chunksOf c data).flatten = data ∧
    ∃ t root, ed2kRoot c data = some root ∧ runCommands (ed2kCommands c data) s = .next t ∧
      t.responses.getLast? = some { status := .ok, digest := root } ∧
      othersKept .md4 s t ∧ t.fault = s.fault

/-- The result record holds the root at 0, CRC32 at 16, MD5 at 20 and SHA-1 at 36, slots not
requested left untouched (R210). -/
def Obligations.ResultRecordLayout : Prop :=
  ∀ (old : Bytes 56) (root : List Byte) (crc md5 sha1 : Option (List Byte)),
    root.length = 16 → (∀ d, crc = some d → d.length = 4) → (∀ d, md5 = some d → d.length = 16) →
    (∀ d, sha1 = some d → d.length = 20) →
    (resultRecord old root crc md5 sha1).toList =
      root ++ crc.getD ((old.toList.drop 16).take 4) ++ md5.getD ((old.toList.drop 20).take 16) ++
        sha1.getD (old.toList.drop 36)

/-- A file that arrives in I/O blocks of any lengths, each split at the chunk boundaries it
straddles, gives the chunk hash list and the root hash (R203, R207, R208, R209). -/
def Obligations.BlockStreamGivesChunkHashes : Prop :=
  (∀ (c room : Nat) (block : List Byte), 0 < room → room < block.length →
    block.length ≤ room + c → block.length < 2 ^ 32 →
    blockCommands c room block =
      [.md4Update (block.take room), .md4Finish, .md4GetHash, .md4Reset,
       .md4Update (block.drop room)]) ∧
  ∀ (c : Nat) (blocks : List (List Byte)) (s : State), 0 < c → blocks.flatten ≠ [] →
    blocks.flatten.length < 2 ^ 61 →
    (∀ i ∈ chunkStreamCommands c blocks, i.engine = .md4 ∧ i.wellFormed = true) ∧
    (∃ t new, runCommands (chunkStreamCommands c blocks) s = .next t ∧
      t.responses = s.responses ++ new ∧ (∀ r ∈ new, r.status = .ok) ∧
      (new.map Response.digest).filter (fun d => !d.isEmpty) = chunkHashes c blocks.flatten ∧
      othersKept .md4 s t ∧ t.input = s.input ∧ t.fault = s.fault) ∧
    (∃ t root, ed2kRoot c blocks.flatten = some root ∧
      runCommands (ed2kBlockCommands c blocks) s = .next t ∧
      t.responses.getLast? = some { status := .ok, digest := root })

/-- The bytes of well-formed commands at the front of the stream, one step for each, run exactly
those commands (R56, R59, R70, R78). -/
def Obligations.CommandStreamRunsCommands : Prop :=
  ∀ (is : List Instr) (s : State) (rest : List Byte), (∀ i ∈ is, i.wellFormed = true) →
    s.input = encodeAll is ++ rest →
    Host.Core.run Sys2Proof.core is.length s = runCommands is (s.setInput rest)
end

