-- ==== Sys2Proof/Laws/Bytes.lean ====
section
/-! SUPPORT. The laws of byte arrays: what a tabulated array, MemRead and MemWrite hold
(00_scope.md R13), and the length operand's bytes (30_encoding.md R74). -/

namespace Sys2Proof.Machine

theorem tabulate_toList (n : Nat) (f : Nat → Byte) :
    (tabulate n f).toList = (List.range n).map f := rfl

@[simp] theorem byteAt_tabulate {n : Nat} (f : Nat → Byte) {i : Nat} (h : i < n) :
    byteAt (tabulate n f) i = f i := by
  simp [byteAt, tabulate_toList, List.getD_eq_getElem?_getD, h]

theorem byteAt_eq_getElem {n : Nat} (b : Bytes n) {i : Nat} (h : i < n) : byteAt b i = b[i] := by
  simp [byteAt, List.getD_eq_getElem?_getD, h]

/-- Two arrays with the same byte at every offset are equal. -/
theorem bytes_ext {n : Nat} {a b : Bytes n} (h : ∀ i, i < n → byteAt a i = byteAt b i) : a = b := by
  apply Vector.ext
  intro i hi
  rw [← byteAt_eq_getElem a hi, ← byteAt_eq_getElem b hi, h i hi]

/-- An array is the table of its bytes. -/
theorem bytes_toList {n : Nat} (b : Bytes n) : b.toList = (List.range n).map (byteAt b) := by
  apply List.ext_getElem
  · simp
  · intro i h1 h2
    have hi : i < n := by simpa using h1
    simp [byteAt_eq_getElem b hi]

theorem tabulate_congr {n : Nat} {f g : Nat → Byte} (h : ∀ i, i < n → f i = g i) :
    tabulate n f = tabulate n g :=
  bytes_ext fun i hi => by rw [byteAt_tabulate f hi, byteAt_tabulate g hi, h i hi]

theorem takeBytes_toList {n : Nat} {s : List Byte} (h : s.length = n) :
    (takeBytes n s).toList = s := by
  subst h
  rw [takeBytes, tabulate_toList]
  apply List.ext_getElem
  · simp
  · intro i h1 h2
    simp [List.getD_eq_getElem?_getD, h2]

theorem byteAt_takeBytes {n : Nat} (s : List Byte) {i : Nat} (h : i < n) :
    byteAt (takeBytes n s) i = s.getD i 0 := by
  rw [takeBytes, byteAt_tabulate _ h]

/-- Only the first `n` bytes of a sequence go into an array of `n` bytes. -/
theorem takeBytes_append_left {n : Nat} {s : List Byte} (t : List Byte) (h : n ≤ s.length) :
    takeBytes n (s ++ t) = takeBytes n s :=
  tabulate_congr fun i hi => by
    simp [List.getD_eq_getElem?_getD, List.getElem?_append_left (by omega : i < s.length)]

/-- The bytes of an array, read back into an array, are that array. -/
theorem takeBytes_of_toList {n : Nat} (b : Bytes n) : takeBytes n b.toList = b :=
  bytes_ext fun i hi => by rw [byteAt_takeBytes _ hi]; rfl

/-- MemWrite, byte by byte (R13): a written byte is the sequence's, any other is kept. -/
theorem byteAt_memWrite {n : Nat} (b : Bytes n) (off : Nat) (s : List Byte) {i : Nat} (h : i < n) :
    byteAt (memWrite b off s) i =
      if off ≤ i then (s[i - off]?).getD (byteAt b i) else byteAt b i := by
  rw [memWrite, byteAt_tabulate _ h]

/-- Outside the written bytes MemWrite changes nothing (R13). -/
theorem byteAt_memWrite_outside {n : Nat} (b : Bytes n) (off : Nat) (s : List Byte) {i : Nat}
    (h : i < n) (ho : i < off ∨ off + s.length ≤ i) :
    byteAt (memWrite b off s) i = byteAt b i := by
  rw [byteAt_memWrite b off s h]
  split
  · rw [List.getElem?_eq_none (by omega)]; rfl
  · rfl

/-- A written byte reads as the sequence's (R13). -/
theorem byteAt_memWrite_inside {n : Nat} (b : Bytes n) (off : Nat) (s : List Byte) {j : Nat}
    (hj : j < s.length) (h : off + j < n) :
    byteAt (memWrite b off s) (off + j) = s[j] := by
  rw [byteAt_memWrite b off s h]
  simp [hj]

/-- MemWrite of no bytes writes nothing (R13). -/
@[simp] theorem memWrite_nil {n : Nat} (b : Bytes n) (off : Nat) : memWrite b off [] = b :=
  bytes_ext fun i hi => byteAt_memWrite_outside b off [] hi (by simp; omega)

/-- What MemWrite within the array leaves: the bytes before, the sequence, the bytes after. -/
theorem memWrite_toList {n : Nat} (b : Bytes n) {off : Nat} {s : List Byte}
    (h : off + s.length ≤ n) :
    (memWrite b off s).toList =
      b.toList.take off ++ s ++ b.toList.drop (off + s.length) := by
  apply List.ext_getElem
  · simp; omega
  · intro i h1 h2
    have hi : i < n := by simpa using h1
    rw [Vector.getElem_toList, ← byteAt_eq_getElem _ hi, byteAt_memWrite b off s hi]
    simp only [List.getElem_append, List.length_append, List.length_take, Vector.length_toList,
      List.getElem_take, List.getElem_drop, Vector.getElem_toList, byteAt_eq_getElem b hi]
    have hm : min off n = off := by omega
    by_cases hlt : i < off
    · rw [if_neg (by omega), dif_pos (by omega), dif_pos (by omega)]
    · by_cases hs : i < off + s.length
      · rw [if_pos (by omega), dif_pos (by omega), dif_neg (by omega),
          List.getElem?_eq_getElem (by omega)]
        simp [hm]
      · rw [if_pos (by omega), dif_neg (by omega), List.getElem?_eq_none (by omega)]
        have hx : off + s.length + (i - (min off n + s.length)) = i := by omega
        simp [hx]

/-- A read of what was just written gives the sequence back (R13). -/
theorem memRead_memWrite {n : Nat} (b : Bytes n) {off : Nat} {s : List Byte}
    (h : off + s.length ≤ n) : memRead (memWrite b off s) off s.length = s := by
  rw [memRead, memWrite_toList b h, List.append_assoc,
    List.drop_append_of_le_length (by simp; omega)]
  simp

@[simp] theorem leBytes_length (k v : Nat) : (leBytes k v).length = k := by
  induction k generalizing v with
  | zero => rfl
  | succ k ih => simp [leBytes, ih]

/-- The `k` little-endian bytes of a number below `256 ^ k` write that number (R74). -/
theorem leNat_leBytes {k v : Nat} (h : v < 256 ^ k) : leNat (leBytes k v) = v := by
  induction k generalizing v with
  | zero => simp [leBytes, leNat] at *; omega
  | succ k ih =>
    have hk : v / 256 < 256 ^ k := by
      rw [Nat.div_lt_iff_lt_mul (by decide)]; rw [Nat.pow_succ] at h; omega
    simp only [leBytes, leNat, ih hk, BitVec.toNat_ofNat]
    omega

/-- The bytes of a number written little-endian write it back (R74). -/
theorem leBytes_leNat (s : List Byte) : leBytes s.length (leNat s) = s := by
  induction s with
  | nil => rfl
  | cons b bs ih =>
    have hb := b.isLt
    have h1 : (b.toNat + 256 * leNat bs) / 256 = leNat bs := by omega
    simp only [List.length_cons, leBytes, leNat, h1, ih, List.cons.injEq, and_true]
    apply BitVec.eq_of_toNat_eq
    simp
    omega

/-- A length operand of `k` bytes is below `256 ^ k` (R74). -/
theorem leNat_lt (s : List Byte) : leNat s < 256 ^ s.length := by
  induction s with
  | nil => decide
  | cons b bs ih =>
    have hb := b.isLt
    simp only [leNat, List.length_cons, Nat.pow_succ]
    omega

end Sys2Proof.Machine
end

