-- ==== Sys2Proof/Laws/Accumulator.lean ====
section
/-! SUPPORT. What the shared procedures of the block engines do (40_block_buffer.md): compressing
whole blocks, and one lemma for each register that Absorb_E leaves. Callers cite these and do not
unfold `absorb`. -/

namespace Sys2Proof.Machine

variable {σ : Type} {l : Nat} (alg : Algorithm σ l)

/-- Compression reads the `k` blocks it consumes and nothing after them. -/
theorem compressBlocks_append {k : Nat} (h : σ) {d : List Byte} (t : List Byte)
    (hk : 64 * k ≤ d.length) : compressBlocks alg k h (d ++ t) = compressBlocks alg k h d := by
  induction k generalizing h d with
  | zero => rfl
  | succ k ih =>
    simp only [compressBlocks]
    rw [takeBytes_append_left t (by omega), List.drop_append_of_le_length (by omega),
      ih _ (by simp; omega)]

/-- Compressing `j + k` blocks is compressing `j` and then `k` of what follows. -/
theorem compressBlocks_add (j k : Nat) (h : σ) (d : List Byte) :
    compressBlocks alg (j + k) h d =
      compressBlocks alg k (compressBlocks alg j h d) (d.drop (64 * j)) := by
  induction j generalizing h d with
  | zero => simp [compressBlocks]
  | succ j ih =>
    rw [Nat.succ_add]
    simp only [compressBlocks, ih, List.drop_drop]
    congr 2
    omega

/-- With no whole block nothing is compressed. -/
theorem foldBlocks_short (h : σ) {d : List Byte} (hd : d.length < 64) : foldBlocks alg h d = h := by
  rw [foldBlocks, Nat.div_eq_of_lt hd]; rfl

/-- One whole block, and then the blocks of what follows it. -/
theorem foldBlocks_block (h : σ) {b : List Byte} (t : List Byte) (hb : b.length = 64) :
    foldBlocks alg h (b ++ t) = foldBlocks alg (alg.compress h (takeBytes 64 b)) t := by
  have hdiv : (b ++ t).length / 64 = t.length / 64 + 1 := by
    rw [List.length_append, hb]; omega
  rw [foldBlocks, foldBlocks, hdiv, compressBlocks, takeBytes_append_left t (by omega),
    List.drop_append_of_le_length (by omega), List.drop_of_length_le (by omega), List.nil_append]

/-- The tail of a sequence: what follows its whole blocks (R106). -/
def blockTail (d : List Byte) : List Byte := d.drop (64 * (d.length / 64))

theorem blockTail_length (d : List Byte) : (blockTail d).length = d.length % 64 := by
  simp [blockTail]; omega

/-- The whole blocks of a sequence, then the blocks its tail makes with what follows (R106). -/
theorem foldBlocks_append (h : σ) (x y : List Byte) :
    foldBlocks alg h (x ++ y) = foldBlocks alg (foldBlocks alg h x) (blockTail x ++ y) := by
  have hdiv : (x ++ y).length / 64 = x.length / 64 + (blockTail x ++ y).length / 64 := by
    simp only [List.length_append, blockTail_length]; omega
  have hdrop : (x ++ y).drop (64 * (x.length / 64)) = blockTail x ++ y := by
    rw [List.drop_append_of_le_length (by omega)]; rfl
  rw [foldBlocks, hdiv, compressBlocks_add, hdrop, compressBlocks_append alg h y (by omega)]
  rfl

/-- The tail of a sequence is the tail of its tail with what follows (R106). -/
theorem blockTail_append (x y : List Byte) : blockTail (blockTail x ++ y) = blockTail (x ++ y) := by
  have hdiv : (x ++ y).length / 64 = x.length / 64 + (blockTail x ++ y).length / 64 := by
    simp only [List.length_append, blockTail_length]; omega
  have hdrop : (x ++ y).drop (64 * (x.length / 64)) = blockTail x ++ y := by
    rw [List.drop_append_of_le_length (by omega)]; rfl
  simp only [blockTail] at *
  rw [hdiv, Nat.mul_add, ← List.drop_drop, hdrop]

theorem bufIndex_lt (e : BlockEngine σ l) : bufIndex e < 64 := Nat.mod_lt _ (by decide)

/-- The buffered-byte count is `index`, below the block size (R29). -/
@[simp] theorem pending_length (e : BlockEngine σ l) : (pending e).length = bufIndex e := by
  have := bufIndex_lt e
  simp [pending]; omega

/-- `index` after the counter has counted a payload (R102). -/
theorem index_add (len : DWord) (data : List Byte) :
    (len + payloadLen data).toNat % 64 = (len.toNat % 64 + data.length) % 64 := by
  simp only [payloadLen, BitVec.toNat_add, BitVec.toNat_ofNat]
  omega

/-- `Absorb_E` adds the payload's length to the counter (R101, R103). -/
theorem absorb_len (e : BlockEngine σ l) (data : List Byte) :
    (absorb alg e data).len = e.len + payloadLen data := by
  simp only [absorb, absorbWhole]
  split <;> [split; skip] <;> rfl

/-- `Absorb_E` does not touch the phase (R32). -/
theorem absorb_ph (e : BlockEngine σ l) (data : List Byte) : (absorb alg e data).ph = e.ph := by
  simp only [absorb, absorbWhole]
  split <;> [split; skip] <;> rfl

/-- `Absorb_E` does not touch the digest latch (R32). -/
theorem absorb_dig (e : BlockEngine σ l) (data : List Byte) : (absorb alg e data).dig = e.dig := by
  simp only [absorb, absorbWhole]
  split <;> [split; skip] <;> rfl

/-- `Absorb_E` uses no free value. -/
theorem absorb_free (e : BlockEngine σ l) (data : List Byte) :
    (absorb alg e data).free = e.free := by
  simp only [absorb, absorbWhole]
  split <;> [split; skip] <;> rfl

theorem absorb_index (e : BlockEngine σ l) (data : List Byte) :
    bufIndex (absorb alg e data) = (bufIndex e + data.length) % 64 := by
  rw [bufIndex, absorb_len, index_add]; rfl

/-- The bytes a filled buffer holds: those that were waiting, then those just written (R101). -/
theorem filled_buffer (e : BlockEngine σ l) {s : List Byte} (h : bufIndex e + s.length ≤ 64) :
    (memWrite e.buf (bufIndex e) s).toList.take (bufIndex e + s.length) = pending e ++ s := by
  have := bufIndex_lt e
  rw [memWrite_toList e.buf h, List.take_append_of_le_length (by simp; omega),
    List.take_of_length_le (by simp)]
  rfl

/-- `Absorb_E` compresses the whole blocks of the waiting bytes followed by the payload (R102). -/
theorem absorb_h (e : BlockEngine σ l) (data : List Byte) :
    (absorb alg e data).h = foldBlocks alg e.h (pending e ++ data) := by
  have hidx := bufIndex_lt e
  have hp := pending_length e
  by_cases h0 : bufIndex e = 0
  · have hnil : pending e = [] := List.eq_nil_of_length_eq_zero (by rw [hp, h0])
    simp only [absorb, h0, ne_eq, not_true, if_false, hnil, List.nil_append]
    rfl
  · by_cases hs : bufIndex e + data.length < 64
    · simp only [absorb, ne_eq, h0, not_false_iff, if_true, hs]
      rw [foldBlocks_short alg _ (by simp; omega)]
    · simp only [absorb, ne_eq, h0, not_false_iff, if_true, hs, if_false]
      have hlen : (data.take (64 - bufIndex e)).length = 64 - bufIndex e := by simp; omega
      have hfill := filled_buffer e (s := data.take (64 - bufIndex e)) (by omega)
      have hsum : bufIndex e + (data.take (64 - bufIndex e)).length = 64 := by omega
      rw [hsum] at hfill
      have hsplit : pending e ++ data =
          (pending e ++ data.take (64 - bufIndex e)) ++ data.drop (64 - bufIndex e) := by
        rw [List.append_assoc, List.take_append_drop]
      rw [hsplit, foldBlocks_block alg _ _ (by simp; omega), ← hfill]
      rfl

/-- `Absorb_E` leaves waiting the tail of the waiting bytes followed by the payload (R102). -/
theorem absorb_pending (e : BlockEngine σ l) (data : List Byte) :
    pending (absorb alg e data) = blockTail (pending e ++ data) := by
  have hidx := bufIndex_lt e
  have hp := pending_length e
  rw [pending, absorb_index]
  by_cases h0 : bufIndex e = 0
  · have hnil : pending e = [] := List.eq_nil_of_length_eq_zero (by rw [hp, h0])
    simp only [absorb, h0, ne_eq, not_true, if_false, hnil, List.nil_append, absorbWhole,
      Nat.zero_add]
    have hl : (data.drop (64 * (data.length / 64))).length = data.length % 64 :=
      blockTail_length data
    rw [memWrite_toList _ (by omega), List.take_zero, List.nil_append,
      List.take_append_of_le_length (by omega), List.take_of_length_le (by omega)]
    rfl
  · by_cases hs : bufIndex e + data.length < 64
    · simp only [absorb, ne_eq, h0, not_false_iff, if_true, hs]
      rw [Nat.mod_eq_of_lt hs, filled_buffer e (by omega), blockTail,
        Nat.div_eq_of_lt (by simp; omega)]
      rfl
    · simp only [absorb, ne_eq, h0, not_false_iff, if_true, hs, if_false, absorbWhole]
      have hl := blockTail_length (data.drop (64 - bufIndex e))
      have hm : (bufIndex e + data.length) % 64 = (data.drop (64 - bufIndex e)).length % 64 := by
        simp; omega
      rw [hm, ← hl]
      have hlt : (blockTail (data.drop (64 - bufIndex e))).length ≤ 64 := by omega
      have hw := memWrite_toList (memWrite e.buf (bufIndex e) (data.take (64 - bufIndex e)))
        (off := 0) (s := blockTail (data.drop (64 - bufIndex e))) (by omega)
      rw [← blockTail, hw, List.take_zero, List.nil_append,
        List.take_append_of_le_length (by omega), List.take_of_length_le (by omega)]
      have hsplit : pending e ++ data =
          (pending e ++ data.take (64 - bufIndex e)) ++ data.drop (64 - bufIndex e) := by
        rw [List.append_assoc, List.take_append_drop]
      have h64 : (pending e ++ data.take (64 - bufIndex e)).length = 64 := by simp; omega
      rw [hsplit, ← blockTail_append]
      have hnil : blockTail (pending e ++ data.take (64 - bufIndex e)) = [] := by
        apply List.eq_nil_of_length_eq_zero
        rw [blockTail_length, h64]
      rw [hnil, List.nil_append]

theorem finish_ph (e : BlockEngine σ l) : (finishEngine alg e).ph = .finished := rfl

/-- Finish_E zeroizes the working state (R113). -/
theorem finish_zero (e : BlockEngine σ l) :
    (finishEngine alg e).h = alg.zero ∧ (finishEngine alg e).len = 0 ∧
      (finishEngine alg e).buf = zeroBytes 64 := ⟨rfl, rfl, rfl⟩

/-- The digest Finish_E latches (R104): of the waiting bytes followed by the padding. -/
theorem finish_dig (e : BlockEngine σ l) :
    (finishEngine alg e).dig = alg.ser (foldBlocks alg e.h (pending e ++ padding alg e.len)) := by
  rw [← absorb_h]; rfl

theorem finish_free (e : BlockEngine σ l) : (finishEngine alg e).free = e.free :=
  absorb_free alg e _

/-- The phase, state words and counter Reset_E leaves (R111). -/
theorem reset_regs (e : BlockEngine σ l) :
    (resetEngineState alg e).ph = .ready ∧ (resetEngineState alg e).h = alg.iv ∧
      (resetEngineState alg e).len = 0 := ⟨rfl, rfl, rfl⟩

/-- Nothing is waiting after Reset_E (R115). -/
theorem reset_pending (e : BlockEngine σ l) : pending (resetEngineState alg e) = [] := by
  simp [pending, bufIndex, resetEngineState]

end Sys2Proof.Machine
end

