-- ==== Sys2Proof/Laws/Decode.lean ====
section
/-! SUPPORT. The decoder's cases, said once (30_encoding.md R70 to R78): an illegal word, format N,
format U with its operand and payload. Callers cite these and do not unfold `decode`. -/

open Sys2Proof.Machine

namespace Sys2Proof

theorem lenBytes_eq : Config.lenBytes = 4 := rfl

/-- What a payload's check says (R74). -/
theorem payloadFits_iff {data : List Byte} : payloadFits data = true ↔ data.length < 2 ^ 32 := by
  rw [payloadFits, decide_eq_true_iff]; rfl

/-- The reserved field is zero in exactly the sixteen defined words (R71, R76). -/
theorem rsvField_eq_zero_iff : ∀ cw : Byte, rsvField cw = 0 ↔ cw.toNat < 16 := by decide

/-- A word of format N is the table's encoding of its fields (R71, R75). -/
theorem encode_ofFields_formatN : ∀ cw : Byte, rsvField cw = 0 → opField cw ≠ .update →
    encode (Instr.ofFields (engineField cw) (opField cw) []) = [cw] := by decide

/-- The command word of each engine's UPDATE (R75). -/
def updateWord : Engine → Byte
  | .md4 => 0x01
  | .md5 => 0x05
  | .sha1 => 0x09
  | .crc32 => 0x0D

/-- A word of format U is its engine's UPDATE (R71, R75). -/
theorem eq_updateWord : ∀ cw : Byte, rsvField cw = 0 → opField cw = .update →
    cw = updateWord (engineField cw) := by decide

theorem encode_update (e : Engine) (data : List Byte) :
    encode (Instr.ofFields e .update data) = encodeU (updateWord e) data := by cases e <;> rfl

theorem ofFields_engine (e : Engine) (op : Op) (data : List Byte) :
    (Instr.ofFields e op data).engine = e := by cases e <;> cases op <;> rfl

theorem ofFields_op (e : Engine) (op : Op) (data : List Byte) :
    (Instr.ofFields e op data).op = op := by cases e <;> cases op <;> rfl

theorem ofFields_update_data (e : Engine) (data : List Byte) :
    (Instr.ofFields e .update data).data = data := by cases e <;> rfl

/-- An illegal command word is one byte (R76, R236). -/
theorem decode_illegal {cw : Byte} (rest : List Byte) (h : rsvField cw ≠ 0) :
    decode (cw :: rest) = .illegal cw rest := by
  rw [decode, if_pos h]

/-- Format N is one byte (R72). -/
theorem decode_formatN {cw : Byte} (rest : List Byte) (h : rsvField cw = 0)
    (ho : opField cw ≠ .update) :
    decode (cw :: rest) = .command (Instr.ofFields (engineField cw) (opField cw) []) rest := by
  rw [decode, if_neg (not_not.mpr h), if_neg ho]

/-- Format U is incomplete until its length operand has arrived (R73, R78). -/
theorem decode_formatU_header {cw : Byte} {rest : List Byte} (h : rsvField cw = 0)
    (ho : opField cw = .update) (hl : rest.length < 4) : decode (cw :: rest) = .incomplete := by
  rw [decode, if_neg (not_not.mpr h), if_pos ho]
  exact if_pos hl

/-- Format U is incomplete until its payload has arrived (R78). -/
theorem decode_formatU_payload {cw : Byte} {field body : List Byte} (h : rsvField cw = 0)
    (ho : opField cw = .update) (hf : field.length = 4) (hl : body.length < leNat field) :
    decode (cw :: (field ++ body)) = .incomplete := by
  have h1 : (field ++ body).take 4 = field := by rw [← hf, List.take_left]
  have h2 : (field ++ body).drop 4 = body := by rw [← hf, List.drop_left]
  have h3 : ¬ (field ++ body).length < 4 := by simp; omega
  rw [decode, if_neg (not_not.mpr h), if_pos ho, lenBytes_eq, if_neg h3, h1, h2]
  exact if_pos hl

/-- Format U with its payload complete (R73, R74). -/
theorem decode_formatU {cw : Byte} {field data : List Byte} (rest : List Byte)
    (h : rsvField cw = 0) (ho : opField cw = .update) (hf : field.length = 4)
    (hl : data.length = leNat field) :
    decode (cw :: (field ++ (data ++ rest))) =
      .command (Instr.ofFields (engineField cw) .update data) rest := by
  have h1 : (field ++ (data ++ rest)).take 4 = field := by rw [← hf, List.take_left]
  have h2 : (field ++ (data ++ rest)).drop 4 = data ++ rest := by rw [← hf, List.drop_left]
  have h3 : ¬ (field ++ (data ++ rest)).length < 4 := by simp; omega
  have h4 : ¬ (data ++ rest).length < leNat field := by simp; omega
  rw [decode, if_neg (not_not.mpr h), if_pos ho, lenBytes_eq, if_neg h3, h1, h2]
  simp only [h4, if_false]
  rw [← hl, List.take_left, List.drop_left]

/-- What a byte string can be (R78), with the pieces it is made of: nothing; an illegal word; a
format-N command; a format-U command without its length operand, or without all of its payload; a
complete format-U command. -/
theorem stream_cases (bs : List Byte) :
    bs = [] ∨
    (∃ cw rest, bs = cw :: rest ∧ rsvField cw ≠ 0) ∨
    (∃ cw rest, bs = cw :: rest ∧ rsvField cw = 0 ∧ opField cw ≠ .update) ∨
    (∃ cw rest, bs = cw :: rest ∧ rsvField cw = 0 ∧ opField cw = .update ∧ rest.length < 4) ∨
    (∃ cw field body, bs = cw :: (field ++ body) ∧ rsvField cw = 0 ∧ opField cw = .update ∧
      field.length = 4 ∧ body.length < leNat field) ∨
    (∃ cw field data rest, bs = cw :: (field ++ (data ++ rest)) ∧ rsvField cw = 0 ∧
      opField cw = .update ∧ field.length = 4 ∧ data.length = leNat field) := by
  cases bs with
  | nil => exact .inl rfl
  | cons cw rest =>
    refine .inr ?_
    by_cases h : rsvField cw = 0
    · refine .inr ?_
      by_cases ho : opField cw = .update
      · refine .inr ?_
        by_cases hl : rest.length < 4
        · exact .inl ⟨cw, rest, rfl, h, ho, hl⟩
        · refine .inr ?_
          have hf : (rest.take 4).length = 4 := by simp; omega
          by_cases hb : (rest.drop 4).length < leNat (rest.take 4)
          · exact .inl ⟨cw, rest.take 4, rest.drop 4, by rw [List.take_append_drop], h, ho, hf, hb⟩
          · refine .inr ⟨cw, rest.take 4, (rest.drop 4).take (leNat (rest.take 4)),
              (rest.drop 4).drop (leNat (rest.take 4)), ?_, h, ho, hf, ?_⟩
            · rw [List.take_append_drop, List.take_append_drop]
            · rw [List.length_take]; omega
      · exact .inl ⟨cw, rest, rfl, h, ho⟩
    · exact .inl ⟨cw, rest, rfl, h⟩

end Sys2Proof
end

