-- ==== Sys2Proof/Laws/PerInstr.lean ====
section
/-! SUPPORT. The family `EncodingShape`: for every command, its encoding is one command word whose
fields name the command (30_encoding.md R71) and has the length of its format (R70). -/

open Sys2Proof.Machine

namespace Sys2Proof.Laws.EncodingShape

/-- The command word's fields are the command's, and the length is its format's. -/
def Statement (i : Instr) : Prop :=
  ∃ cw tail, encode i = cw :: tail ∧ rsvField cw = 0 ∧ engineField cw = i.engine ∧
    opField cw = i.op ∧
    tail.length = if i.op = .update then Config.lenBytes + i.data.length else 0

theorem md4Reset : Statement .md4Reset := ⟨_, _, rfl, rfl, rfl, rfl, rfl⟩

theorem md4Update (data : List Byte) : Statement (.md4Update data) :=
  ⟨_, _, rfl, rfl, rfl, rfl, by simp [Instr.op, Instr.data]⟩

theorem md4Finish : Statement .md4Finish := ⟨_, _, rfl, rfl, rfl, rfl, rfl⟩

theorem md4GetHash : Statement .md4GetHash := ⟨_, _, rfl, rfl, rfl, rfl, rfl⟩

theorem md5Reset : Statement .md5Reset := ⟨_, _, rfl, rfl, rfl, rfl, rfl⟩

theorem md5Update (data : List Byte) : Statement (.md5Update data) :=
  ⟨_, _, rfl, rfl, rfl, rfl, by simp [Instr.op, Instr.data]⟩

theorem md5Finish : Statement .md5Finish := ⟨_, _, rfl, rfl, rfl, rfl, rfl⟩

theorem md5GetHash : Statement .md5GetHash := ⟨_, _, rfl, rfl, rfl, rfl, rfl⟩

theorem sha1Reset : Statement .sha1Reset := ⟨_, _, rfl, rfl, rfl, rfl, rfl⟩

theorem sha1Update (data : List Byte) : Statement (.sha1Update data) :=
  ⟨_, _, rfl, rfl, rfl, rfl, by simp [Instr.op, Instr.data]⟩

theorem sha1Finish : Statement .sha1Finish := ⟨_, _, rfl, rfl, rfl, rfl, rfl⟩

theorem sha1GetHash : Statement .sha1GetHash := ⟨_, _, rfl, rfl, rfl, rfl, rfl⟩

theorem crc32Reset : Statement .crc32Reset := ⟨_, _, rfl, rfl, rfl, rfl, rfl⟩

theorem crc32Update (data : List Byte) : Statement (.crc32Update data) :=
  ⟨_, _, rfl, rfl, rfl, rfl, by simp [Instr.op, Instr.data]⟩

theorem crc32Finish : Statement .crc32Finish := ⟨_, _, rfl, rfl, rfl, rfl, rfl⟩

theorem crc32GetHash : Statement .crc32GetHash :=
  ⟨_, _, rfl, rfl, rfl, rfl, rfl⟩

end Sys2Proof.Laws.EncodingShape
end

