-- ==== Sys2Proof/Laws/Sequences.lean ====
section
/-! SUPPORT. What cutting a byte sequence into pieces and running commands can do
(45_host_sequences.md R201, R208). Callers cite these and do not unfold `piecesOf`. -/

namespace Sys2Proof.Machine

/-- Enough fuel cuts the whole sequence: the pieces are the sequence, in order. -/
theorem piecesOf_flatten {c : Nat} (hc : 0 < c) {n : Nat} {data : List Byte}
    (h : data.length ≤ n) : (piecesOf c n data).flatten = data := by
  induction n generalizing data with
  | zero => rw [List.eq_nil_of_length_eq_zero (Nat.le_zero.1 h)]; rfl
  | succ n ih =>
    rw [piecesOf]
    split
    · rename_i he; rw [List.isEmpty_iff.1 he]; rfl
    · rw [List.flatten_cons, ih (by simp; omega), List.take_append_drop]

/-- No piece is empty and none is longer than asked. -/
theorem piecesOf_lengths {c : Nat} (hc : 0 < c) {n : Nat} {data piece : List Byte}
    (h : piece ∈ piecesOf c n data) : 0 < piece.length ∧ piece.length ≤ c := by
  induction n generalizing data with
  | zero => cases h
  | succ n ih =>
    rw [piecesOf] at h
    split at h
    · cases h
    · rename_i he
      have hd : 0 < data.length := List.length_pos_iff.2 (by simpa using he)
      rcases List.mem_cons.1 h with rfl | h
      · simp; omega
      · exact ih h

/-- A sequence that fits one UPDATE goes in one (R201). -/
theorem payloadPieces_of_fits {data : List Byte} (h : payloadFits data = true) :
    payloadPieces data = [data] := by
  rw [payloadPieces, if_pos h]

/-- The payloads are the data, in order (R201). -/
theorem payloadPieces_flatten (data : List Byte) : (payloadPieces data).flatten = data := by
  rw [payloadPieces]
  split
  · simp
  · exact piecesOf_flatten (by decide) (Nat.le_refl _)

/-- Each payload fits its UPDATE (R74, R201). -/
theorem payloadPieces_fit {data piece : List Byte} (h : piece ∈ payloadPieces data) :
    payloadFits piece = true := by
  rw [payloadPieces] at h
  split at h
  · rw [List.mem_singleton.1 h]; assumption
  · have hm : maxPayload < 2 ^ 32 := by decide
    exact payloadFits_iff.2 (Nat.lt_of_le_of_lt (piecesOf_lengths (by decide) h).2 hm)

/-- The UPDATEs of any data are well formed (R74, R201). -/
theorem updateCommands_wellFormed {e : Engine} {data : List Byte} {i : Instr}
    (h : i ∈ updateCommands e data) : i.wellFormed = true := by
  obtain ⟨piece, hp, rfl⟩ := List.mem_map.1 h
  cases e <;> exact payloadPieces_fit hp

/-- Commands run in order: the second list runs from where the first ends (R59). -/
theorem runCommands_append {is js : List Instr} {s t : State} (h : runCommands is s = .next t) :
    runCommands (is ++ js) s = runCommands js t := by
  induction is generalizing s with
  | nil => cases h; rfl
  | cons i is ih =>
    simp only [runCommands, List.cons_append] at h ⊢
    cases hx : exec i s with
    | next u => rw [hx] at h; exact ih h
    | fault u => rw [hx] at h; cases h
    | refused u => rw [hx] at h; cases h

end Sys2Proof.Machine
end

