-- ==== Sys2Proof/Laws/State.lean ====
section
/-! SUPPORT. One lemma for each field under each update of the state (Machine/Ops.lean), so that no
proof unfolds a record update; and what a rejection does to each field (60_exceptions.md R232). -/

namespace Sys2Proof.Machine

@[simp] theorem State.setMd4_md4 (s : State) (e : BlockEngine Hash4 16) :
    (s.setMd4 e).md4 = e := rfl
@[simp] theorem State.setMd4_md5 (s : State) (e : BlockEngine Hash4 16) :
    (s.setMd4 e).md5 = s.md5 := rfl
@[simp] theorem State.setMd4_sha1 (s : State) (e : BlockEngine Hash4 16) :
    (s.setMd4 e).sha1 = s.sha1 := rfl
@[simp] theorem State.setMd4_crc32 (s : State) (e : BlockEngine Hash4 16) :
    (s.setMd4 e).crc32 = s.crc32 := rfl
@[simp] theorem State.setMd4_input (s : State) (e : BlockEngine Hash4 16) :
    (s.setMd4 e).input = s.input := rfl
@[simp] theorem State.setMd4_responses (s : State) (e : BlockEngine Hash4 16) :
    (s.setMd4 e).responses = s.responses := rfl
@[simp] theorem State.setMd4_fault (s : State) (e : BlockEngine Hash4 16) :
    (s.setMd4 e).fault = s.fault := rfl

@[simp] theorem State.setMd5_md4 (s : State) (e : BlockEngine Hash4 16) :
    (s.setMd5 e).md4 = s.md4 := rfl
@[simp] theorem State.setMd5_md5 (s : State) (e : BlockEngine Hash4 16) :
    (s.setMd5 e).md5 = e := rfl
@[simp] theorem State.setMd5_sha1 (s : State) (e : BlockEngine Hash4 16) :
    (s.setMd5 e).sha1 = s.sha1 := rfl
@[simp] theorem State.setMd5_crc32 (s : State) (e : BlockEngine Hash4 16) :
    (s.setMd5 e).crc32 = s.crc32 := rfl
@[simp] theorem State.setMd5_input (s : State) (e : BlockEngine Hash4 16) :
    (s.setMd5 e).input = s.input := rfl
@[simp] theorem State.setMd5_responses (s : State) (e : BlockEngine Hash4 16) :
    (s.setMd5 e).responses = s.responses := rfl
@[simp] theorem State.setMd5_fault (s : State) (e : BlockEngine Hash4 16) :
    (s.setMd5 e).fault = s.fault := rfl

@[simp] theorem State.setSha1_md4 (s : State) (e : BlockEngine Hash5 20) :
    (s.setSha1 e).md4 = s.md4 := rfl
@[simp] theorem State.setSha1_md5 (s : State) (e : BlockEngine Hash5 20) :
    (s.setSha1 e).md5 = s.md5 := rfl
@[simp] theorem State.setSha1_sha1 (s : State) (e : BlockEngine Hash5 20) :
    (s.setSha1 e).sha1 = e := rfl
@[simp] theorem State.setSha1_crc32 (s : State) (e : BlockEngine Hash5 20) :
    (s.setSha1 e).crc32 = s.crc32 := rfl
@[simp] theorem State.setSha1_input (s : State) (e : BlockEngine Hash5 20) :
    (s.setSha1 e).input = s.input := rfl
@[simp] theorem State.setSha1_responses (s : State) (e : BlockEngine Hash5 20) :
    (s.setSha1 e).responses = s.responses := rfl
@[simp] theorem State.setSha1_fault (s : State) (e : BlockEngine Hash5 20) :
    (s.setSha1 e).fault = s.fault := rfl

@[simp] theorem State.setCrc32_md4 (s : State) (e : CrcEngine) : (s.setCrc32 e).md4 = s.md4 := rfl
@[simp] theorem State.setCrc32_md5 (s : State) (e : CrcEngine) : (s.setCrc32 e).md5 = s.md5 := rfl
@[simp] theorem State.setCrc32_sha1 (s : State) (e : CrcEngine) :
    (s.setCrc32 e).sha1 = s.sha1 := rfl
@[simp] theorem State.setCrc32_crc32 (s : State) (e : CrcEngine) : (s.setCrc32 e).crc32 = e := rfl
@[simp] theorem State.setCrc32_input (s : State) (e : CrcEngine) :
    (s.setCrc32 e).input = s.input := rfl
@[simp] theorem State.setCrc32_responses (s : State) (e : CrcEngine) :
    (s.setCrc32 e).responses = s.responses := rfl
@[simp] theorem State.setCrc32_fault (s : State) (e : CrcEngine) :
    (s.setCrc32 e).fault = s.fault := rfl

@[simp] theorem State.setInput_md4 (s : State) (bs : List Byte) : (s.setInput bs).md4 = s.md4 := rfl
@[simp] theorem State.setInput_md5 (s : State) (bs : List Byte) : (s.setInput bs).md5 = s.md5 := rfl
@[simp] theorem State.setInput_sha1 (s : State) (bs : List Byte) :
    (s.setInput bs).sha1 = s.sha1 := rfl
@[simp] theorem State.setInput_crc32 (s : State) (bs : List Byte) :
    (s.setInput bs).crc32 = s.crc32 := rfl
@[simp] theorem State.setInput_input (s : State) (bs : List Byte) :
    (s.setInput bs).input = bs := rfl
@[simp] theorem State.setInput_responses (s : State) (bs : List Byte) :
    (s.setInput bs).responses = s.responses := rfl
@[simp] theorem State.setInput_fault (s : State) (bs : List Byte) :
    (s.setInput bs).fault = s.fault := rfl

@[simp] theorem State.offer_md4 (s : State) (bs : List Byte) : (s.offer bs).md4 = s.md4 := rfl
@[simp] theorem State.offer_md5 (s : State) (bs : List Byte) : (s.offer bs).md5 = s.md5 := rfl
@[simp] theorem State.offer_sha1 (s : State) (bs : List Byte) : (s.offer bs).sha1 = s.sha1 := rfl
@[simp] theorem State.offer_crc32 (s : State) (bs : List Byte) : (s.offer bs).crc32 = s.crc32 := rfl
@[simp] theorem State.offer_input (s : State) (bs : List Byte) :
    (s.offer bs).input = s.input ++ bs := rfl
@[simp] theorem State.offer_responses (s : State) (bs : List Byte) :
    (s.offer bs).responses = s.responses := rfl
@[simp] theorem State.offer_fault (s : State) (bs : List Byte) : (s.offer bs).fault = s.fault := rfl

@[simp] theorem State.respond_md4 (s : State) (st : Status) (d : List Byte) :
    (s.respond st d).md4 = s.md4 := rfl
@[simp] theorem State.respond_md5 (s : State) (st : Status) (d : List Byte) :
    (s.respond st d).md5 = s.md5 := rfl
@[simp] theorem State.respond_sha1 (s : State) (st : Status) (d : List Byte) :
    (s.respond st d).sha1 = s.sha1 := rfl
@[simp] theorem State.respond_crc32 (s : State) (st : Status) (d : List Byte) :
    (s.respond st d).crc32 = s.crc32 := rfl
@[simp] theorem State.respond_input (s : State) (st : Status) (d : List Byte) :
    (s.respond st d).input = s.input := rfl
@[simp] theorem State.respond_responses (s : State) (st : Status) (d : List Byte) :
    (s.respond st d).responses = s.responses ++ [{ status := st, digest := d }] := rfl
@[simp] theorem State.respond_fault (s : State) (st : Status) (d : List Byte) :
    (s.respond st d).fault = s.fault := rfl

@[simp] theorem State.recordFault_md4 (s : State) (f : Fault) : (s.recordFault f).md4 = s.md4 := rfl
@[simp] theorem State.recordFault_md5 (s : State) (f : Fault) : (s.recordFault f).md5 = s.md5 := rfl
@[simp] theorem State.recordFault_sha1 (s : State) (f : Fault) :
    (s.recordFault f).sha1 = s.sha1 := rfl
@[simp] theorem State.recordFault_crc32 (s : State) (f : Fault) :
    (s.recordFault f).crc32 = s.crc32 := rfl
@[simp] theorem State.recordFault_input (s : State) (f : Fault) :
    (s.recordFault f).input = s.input := rfl
@[simp] theorem State.recordFault_responses (s : State) (f : Fault) :
    (s.recordFault f).responses = s.responses := rfl
@[simp] theorem State.recordFault_fault (s : State) (f : Fault) :
    (s.recordFault f).fault = some (s.fault.getD f) := rfl

@[simp] theorem State.reject_md4 (s : State) (st : Status) (f : Fault) :
    (s.reject st f).md4 = s.md4 := rfl
@[simp] theorem State.reject_md5 (s : State) (st : Status) (f : Fault) :
    (s.reject st f).md5 = s.md5 := rfl
@[simp] theorem State.reject_sha1 (s : State) (st : Status) (f : Fault) :
    (s.reject st f).sha1 = s.sha1 := rfl
@[simp] theorem State.reject_crc32 (s : State) (st : Status) (f : Fault) :
    (s.reject st f).crc32 = s.crc32 := rfl
@[simp] theorem State.reject_input (s : State) (st : Status) (f : Fault) :
    (s.reject st f).input = s.input := rfl
@[simp] theorem State.reject_responses (s : State) (st : Status) (f : Fault) :
    (s.reject st f).responses = s.responses ++ [{ status := st, digest := [] }] := rfl
@[simp] theorem State.reject_fault (s : State) (st : Status) (f : Fault) :
    (s.reject st f).fault = some (s.fault.getD f) := rfl

@[simp] theorem State.protocolError_md4 (s : State) (e : Engine) (op : Op) :
    (s.protocolError e op).md4 = s.md4 := rfl
@[simp] theorem State.protocolError_md5 (s : State) (e : Engine) (op : Op) :
    (s.protocolError e op).md5 = s.md5 := rfl
@[simp] theorem State.protocolError_sha1 (s : State) (e : Engine) (op : Op) :
    (s.protocolError e op).sha1 = s.sha1 := rfl
@[simp] theorem State.protocolError_crc32 (s : State) (e : Engine) (op : Op) :
    (s.protocolError e op).crc32 = s.crc32 := rfl
@[simp] theorem State.protocolError_input (s : State) (e : Engine) (op : Op) :
    (s.protocolError e op).input = s.input := rfl
@[simp] theorem State.protocolError_responses (s : State) (e : Engine) (op : Op) :
    (s.protocolError e op).responses = s.responses ++ [{ status := .errProtocol, digest := [] }] := rfl
@[simp] theorem State.protocolError_fault (s : State) (e : Engine) (op : Op) :
    (s.protocolError e op).fault = some (s.fault.getD (.protocolError e op)) := rfl

@[simp] theorem State.illegalCommand_md4 (s : State) (cw : Byte) :
    (s.illegalCommand cw).md4 = s.md4 := rfl
@[simp] theorem State.illegalCommand_md5 (s : State) (cw : Byte) :
    (s.illegalCommand cw).md5 = s.md5 := rfl
@[simp] theorem State.illegalCommand_sha1 (s : State) (cw : Byte) :
    (s.illegalCommand cw).sha1 = s.sha1 := rfl
@[simp] theorem State.illegalCommand_crc32 (s : State) (cw : Byte) :
    (s.illegalCommand cw).crc32 = s.crc32 := rfl
@[simp] theorem State.illegalCommand_input (s : State) (cw : Byte) :
    (s.illegalCommand cw).input = s.input := rfl
@[simp] theorem State.illegalCommand_responses (s : State) (cw : Byte) :
    (s.illegalCommand cw).responses = s.responses ++ [{ status := .errIllegal, digest := [] }] := rfl
@[simp] theorem State.illegalCommand_fault (s : State) (cw : Byte) :
    (s.illegalCommand cw).fault = some (s.fault.getD (.illegalCommand cw)) := rfl

@[simp] theorem State.phaseOf_md4 (s : State) : s.phaseOf .md4 = s.md4.ph := rfl
@[simp] theorem State.phaseOf_md5 (s : State) : s.phaseOf .md5 = s.md5.ph := rfl
@[simp] theorem State.phaseOf_sha1 (s : State) : s.phaseOf .sha1 = s.sha1.ph := rfl
@[simp] theorem State.phaseOf_crc32 (s : State) : s.phaseOf .crc32 = s.crc32.ph := rfl

@[simp] theorem State.phaseOf_setInput (s : State) (bs : List Byte) (e : Engine) :
    (s.setInput bs).phaseOf e = s.phaseOf e := by cases e <;> rfl

/-- What the admission check can answer (R235): a next state, always. -/
theorem State.admit_cases (s : State) (e : Engine) (op : Op) (acc : State) :
    (admits op (s.phaseOf e) = true ∧ s.ifAdmitted e op acc = .next acc) ∨
    (admits op (s.phaseOf e) = false ∧ s.ifAdmitted e op acc = .next (s.protocolError e op)) := by
  unfold State.ifAdmitted
  cases h : admits op (s.phaseOf e) <;> simp

theorem State.ifAdmitted_of_admits {s : State} {e : Engine} {op : Op} (acc : State)
    (h : admits op (s.phaseOf e) = true) : s.ifAdmitted e op acc = .next acc := by
  simp [State.ifAdmitted, h]

theorem State.ifAdmitted_of_not_admits {s : State} {e : Engine} {op : Op} (acc : State)
    (h : admits op (s.phaseOf e) = false) :
    s.ifAdmitted e op acc = .next (s.protocolError e op) := by
  simp [State.ifAdmitted, h]

end Sys2Proof.Machine
end

