-- ==== Sys2Proof/Laws/Step.lean ====
section
/-! SUPPORT. What a step and a command can do, said once: the three cases of a step, the rejection
of a command its phase does not admit (60_exceptions.md R235), and the next state of each accepted
command. Callers cite these and do not unfold `step` or `exec`. -/

namespace Sys2Proof.Machine

/-- A complete command is consumed and executed (R70, R78). -/
theorem step_command {s : State} {i : Instr} {rest : List Byte}
    (h : decode s.input = .command i rest) : step s = exec i (s.setInput rest) := by
  simp [step, h]

/-- An illegal command word is consumed and rejected (R76, R233). -/
theorem step_illegal {s : State} {cw : Byte} {rest : List Byte}
    (h : decode s.input = .illegal cw rest) :
    step s = .next ((s.setInput rest).illegalCommand cw) := by
  simp [step, h]

/-- Without a complete command the unit waits as it is (R78, R272). -/
theorem step_incomplete {s : State} (h : decode s.input = .incomplete) : step s = .next s := by
  simp [step, h]

/-- The state an accepted command leaves: one line for each command. -/
def acceptedState : Instr → State → State
  | .md4Reset, s => (s.setMd4 (resetEngineState md4Alg s.md4)).respond .ok []
  | .md4Update data, s => (s.setMd4 (absorb md4Alg s.md4 data)).respond .ok []
  | .md4Finish, s => (s.setMd4 (finishEngine md4Alg s.md4)).respond .ok []
  | .md4GetHash, s => s.respond .ok s.md4.dig.toList
  | .md5Reset, s => (s.setMd5 (resetEngineState md5Alg s.md5)).respond .ok []
  | .md5Update data, s => (s.setMd5 (absorb md5Alg s.md5 data)).respond .ok []
  | .md5Finish, s => (s.setMd5 (finishEngine md5Alg s.md5)).respond .ok []
  | .md5GetHash, s => s.respond .ok s.md5.dig.toList
  | .sha1Reset, s => (s.setSha1 (resetEngineState sha1Alg s.sha1)).respond .ok []
  | .sha1Update data, s => (s.setSha1 (absorb sha1Alg s.sha1 data)).respond .ok []
  | .sha1Finish, s => (s.setSha1 (finishEngine sha1Alg s.sha1)).respond .ok []
  | .sha1GetHash, s => s.respond .ok s.sha1.dig.toList
  | .crc32Reset, s => (s.setCrc32 (crcReset s.crc32)).respond .ok []
  | .crc32Update data, s => (s.setCrc32 (crcUpdate s.crc32 data)).respond .ok []
  | .crc32Finish, s => (s.setCrc32 (crcFinish s.crc32)).respond .ok []
  | .crc32GetHash, s => s.respond .ok s.crc32.dig.toList

/-- Every command is its admission check over the state it leaves when accepted. -/
theorem exec_eq_ifAdmitted (i : Instr) (s : State) :
    exec i s = s.ifAdmitted i.engine i.op (acceptedState i s) := by
  cases i <;> rfl

/-- A command its engine's phase admits leaves its accepted state. -/
theorem exec_of_admits {i : Instr} {s : State} (h : admits i.op (s.phaseOf i.engine) = true) :
    exec i s = .next (acceptedState i s) := by
  rw [exec_eq_ifAdmitted, State.ifAdmitted_of_admits _ h]

/-- A command its engine's phase does not admit is rejected. -/
theorem exec_of_not_admits {i : Instr} {s : State}
    (h : admits i.op (s.phaseOf i.engine) = false) :
    exec i s = .next (s.protocolError i.engine i.op) := by
  rw [exec_eq_ifAdmitted, State.ifAdmitted_of_not_admits _ h]

/-- What a command can answer, and nothing else. -/
theorem exec_cases {i : Instr} {s t : State} (h : exec i s = .next t) :
    (admits i.op (s.phaseOf i.engine) = true ∧ t = acceptedState i s) ∨
    (admits i.op (s.phaseOf i.engine) = false ∧ t = s.protocolError i.engine i.op) := by
  cases ha : admits i.op (s.phaseOf i.engine)
  · rw [exec_of_not_admits ha] at h; cases h; exact .inr ⟨rfl, rfl⟩
  · rw [exec_of_admits ha] at h; cases h; exact .inl ⟨rfl, rfl⟩

/-- What a step can answer, and nothing else: the command's effect, a rejection, or waiting. -/
theorem step_cases {s t : State} (h : step s = .next t) :
    (∃ i rest, decode s.input = .command i rest ∧
      exec i (s.setInput rest) = .next t) ∨
    (∃ cw rest, decode s.input = .illegal cw rest ∧
      t = (s.setInput rest).illegalCommand cw) ∨
    (decode s.input = .incomplete ∧ t = s) := by
  cases hd : decode s.input with
  | command i rest => exact .inl ⟨i, rest, rfl, by rw [← step_command hd, h]⟩
  | illegal cw rest =>
    rw [step_illegal hd] at h; cases h; exact .inr (.inl ⟨cw, rest, rfl, rfl⟩)
  | incomplete => rw [step_incomplete hd] at h; cases h; exact .inr (.inr ⟨rfl, rfl⟩)

end Sys2Proof.Machine
end

