-- ==== Sys2Proof/Tests/Slice0.lean ====
section
/-! SUPPORT. The model's own tests. Every expected value is copied from 95_test_vectors.md (V and P
numbers), from a table of a rule, or worked out by hand from an encoding rule; the witnesses at the
end meet the hypotheses of the obligations they are named after. -/

namespace Sys2Proof.Tests

-- One theorem at a time: the evaluations of the digests then share their memory.
set_option Elab.async false

open Sys2Proof Sys2Proof.Machine

/-- The next state of an outcome, if it is one. -/
def after (o : Host.Outcome State Fault Refusal) : Option State :=
  match o with
  | .next t => some t
  | .fault _ => none
  | .refused _ => none

/-- A READY engine that has absorbed fewer than 64 bytes. -/
def readyBlock {σ : Type} (l : Nat) (iv : σ) (data : List Byte) : BlockEngine σ l :=
  { ph := .ready, h := iv, len := payloadLen data, buf := takeBytes 64 data
    dig := zeroBytes l, free := 0 }

/-- All engines READY after fewer than 64 bytes; the CRC register is given. -/
def ready (data : List Byte) (crc : Word) : State :=
  { md4 := readyBlock 16 md4Iv data
    md5 := readyBlock 16 md5Iv data
    sha1 := readyBlock 20 sha1Iv data
    crc32 := { ph := .ready, crc := crc, dig := zeroBytes 4, free := 0 }
    input := [], responses := [], fault := none }

/-- A FINISHED engine holding a digest. -/
def finishedBlock {σ : Type} (l : Nat) (zero : σ) (dig : List Byte) : BlockEngine σ l :=
  { ph := .finished, h := zero, len := 0, buf := zeroBytes 64, dig := takeBytes l dig, free := 0 }

/-- All engines FINISHED, each holding the first bytes of the pattern as its digest. -/
def finished : State :=
  { md4 := finishedBlock 16 zeroHash4 (pat 16)
    md5 := finishedBlock 16 zeroHash4 (pat 16)
    sha1 := finishedBlock 20 zeroHash5 (pat 20)
    crc32 := { ph := .finished, crc := 0, dig := takeBytes 4 (pat 4), free := 0 }
    input := [], responses := [], fault := none }

/-- The bytes of "abc". -/
def abc : List Byte := [0x61, 0x62, 0x63]

/-- A payload one byte too long for its length operand. -/
def tooLong : List Byte := List.replicate (2 ^ 32) 0

theorem payloadFits_tooLong : payloadFits tooLong = false := by
  rw [payloadFits, tooLong, List.length_replicate]; decide

/-- The 64-byte block of the padded empty message: `80 ++ 00 * 63`. -/
def emptyBlock : Block := takeBytes 64 [0x80]

/-- R74: a payload of 2^32 bytes does not fit in `md4Update`. -/
theorem test_md4Update_ill_formed :
    (Instr.md4Update tooLong).wellFormed = false :=
  by
    simp only [Instr.wellFormed, payloadFits_tooLong]

/-- R74: a payload of 2^32 bytes does not fit in `md5Update`. -/
theorem test_md5Update_ill_formed :
    (Instr.md5Update tooLong).wellFormed = false :=
  by
    simp only [Instr.wellFormed, payloadFits_tooLong]

/-- R74: a payload of 2^32 bytes does not fit in `sha1Update`. -/
theorem test_sha1Update_ill_formed :
    (Instr.sha1Update tooLong).wellFormed = false :=
  by
    simp only [Instr.wellFormed, payloadFits_tooLong]

/-- R74: a payload of 2^32 bytes does not fit in `crc32Update`. -/
theorem test_crc32Update_ill_formed :
    (Instr.crc32Update tooLong).wellFormed = false :=
  by
    simp only [Instr.wellFormed, payloadFits_tooLong]

/-- R71, R75: rsv 0000, eng 00, op 00. -/
theorem test_decode_md4Reset :
    decode [0b00000000, 0x5A] = .command .md4Reset [0x5A] :=
  by decide

/-- R71, R73, R75: rsv 0000, eng 00, op 01; then `len` = 3 and the payload. -/
theorem test_decode_md4Update :
    decode [0b00000001, 0x03, 0x00, 0x00, 0x00, 0x61, 0x62, 0x63] =
      .command (.md4Update abc) [] :=
  by decide

/-- R71, R75: rsv 0000, eng 00, op 10. -/
theorem test_decode_md4Finish :
    decode [0b00000010, 0x5A] = .command .md4Finish [0x5A] :=
  by decide

/-- R71, R75: rsv 0000, eng 00, op 11. -/
theorem test_decode_md4GetHash :
    decode [0b00000011, 0x5A] = .command .md4GetHash [0x5A] :=
  by decide

/-- R71, R75: rsv 0000, eng 01, op 00. -/
theorem test_decode_md5Reset :
    decode [0b00000100, 0x5A] = .command .md5Reset [0x5A] :=
  by decide

/-- R71, R73, R75: rsv 0000, eng 01, op 01; then `len` = 3 and the payload. -/
theorem test_decode_md5Update :
    decode [0b00000101, 0x03, 0x00, 0x00, 0x00, 0x61, 0x62, 0x63] =
      .command (.md5Update abc) [] :=
  by decide

/-- R71, R75: rsv 0000, eng 01, op 10. -/
theorem test_decode_md5Finish :
    decode [0b00000110, 0x5A] = .command .md5Finish [0x5A] :=
  by decide

/-- R71, R75: rsv 0000, eng 01, op 11. -/
theorem test_decode_md5GetHash :
    decode [0b00000111, 0x5A] = .command .md5GetHash [0x5A] :=
  by decide

/-- R71, R75: rsv 0000, eng 10, op 00. -/
theorem test_decode_sha1Reset :
    decode [0b00001000, 0x5A] = .command .sha1Reset [0x5A] :=
  by decide

/-- R71, R73, R75: rsv 0000, eng 10, op 01; then `len` = 3 and the payload. -/
theorem test_decode_sha1Update :
    decode [0b00001001, 0x03, 0x00, 0x00, 0x00, 0x61, 0x62, 0x63] =
      .command (.sha1Update abc) [] :=
  by decide

/-- R71, R75: rsv 0000, eng 10, op 10. -/
theorem test_decode_sha1Finish :
    decode [0b00001010, 0x5A] = .command .sha1Finish [0x5A] :=
  by decide

/-- R71, R75: rsv 0000, eng 10, op 11. -/
theorem test_decode_sha1GetHash :
    decode [0b00001011, 0x5A] = .command .sha1GetHash [0x5A] :=
  by decide

/-- R71, R75: rsv 0000, eng 11, op 00. -/
theorem test_decode_crc32Reset :
    decode [0b00001100, 0x5A] = .command .crc32Reset [0x5A] :=
  by decide

/-- R71, R73, R75: rsv 0000, eng 11, op 01; then `len` = 3 and the payload. -/
theorem test_decode_crc32Update :
    decode [0b00001101, 0x03, 0x00, 0x00, 0x00, 0x61, 0x62, 0x63] =
      .command (.crc32Update abc) [] :=
  by decide

/-- R71, R75: rsv 0000, eng 11, op 10. -/
theorem test_decode_crc32Finish :
    decode [0b00001110, 0x5A] = .command .crc32Finish [0x5A] :=
  by decide

/-- R71, R75: rsv 0000, eng 11, op 11. -/
theorem test_decode_crc32GetHash :
    decode [0b00001111, 0x5A] = .command .crc32GetHash [0x5A] :=
  by decide

/-- R74: `len` is little-endian, so `01 02 00 00` announces 513 bytes and four are too few. -/
theorem test_decode_len_little_endian :
    decode [0x01, 0x01, 0x02, 0x00, 0x00, 0x00, 0x00, 0x00, 0x00] = .incomplete :=
  by decide

/-- V48m: the byte 11 is one illegal byte, not an UPDATE. -/
theorem test_decode_illegal :
    decode [0x11, 0x03, 0x00, 0x00, 0x00] = .illegal 0x11 [0x03, 0x00, 0x00, 0x00] :=
  by decide

/-- P1: the stream of `MD4.HASH "abc"` (R79, R81). -/
theorem test_assemble_hash :
    assemble (.hash .md4 (.ascii "abc")) =
      [0x00, 0x01, 0x03, 0x00, 0x00, 0x00, 0x61, 0x62, 0x63, 0x02, 0x03] :=
  by decide

/-- P2: `PAT(70)[10..69]` is the 60 bytes 0a to 45 (R79). -/
theorem test_payload_slice :
    (payloadBytes (.patternSlice 70 10 69)).length = 60 ∧
      (payloadBytes (.patternSlice 70 10 69)).head? = some 0x0A ∧
      (payloadBytes (.patternSlice 70 10 69)).getLast? = some 0x45 :=
  by decide

/-- The host places the row of MD5.UPDATE first in the stream; its `len` is 0, and from hardware reset it is rejected (V48a). -/
theorem test_fetch_runs_row :
    (after (step (State.reset.withFetchWord 8 0x05))).map (fun t => (t.input, t.responses)) =
      some ([], [{ status := .errProtocol, digest := [] }]) :=
  by decide

/-- V48f: RESET in READY with `len` = 3 answers 00 and forgets the bytes. -/
theorem test_md4Reset_forgets :
    (after (exec .md4Reset (ready abc 0))).map (fun t => (t.md4.ph, t.md4.h, t.md4.len)) =
      some (.ready, ⟨0x67452301, 0xEFCDAB89, 0x98BADCFE, 0x10325476⟩, 0) :=
  by decide

/-- V48f: RESET in READY with `len` = 3 answers 00 and forgets the bytes. -/
theorem test_md5Reset_forgets :
    (after (exec .md5Reset (ready abc 0))).map (fun t => (t.md5.ph, t.md5.h, t.md5.len)) =
      some (.ready, ⟨0x67452301, 0xEFCDAB89, 0x98BADCFE, 0x10325476⟩, 0) :=
  by decide

/-- V48f: RESET in READY with `len` = 3 answers 00 and forgets the bytes. -/
theorem test_sha1Reset_forgets :
    (after (exec .sha1Reset (ready abc 0))).map (fun t => (t.sha1.ph, t.sha1.h, t.sha1.len)) =
      some (.ready, ⟨0x67452301, 0xEFCDAB89, 0x98BADCFE, 0x10325476, 0xC3D2E1F0⟩, 0) :=
  by decide

/-- V48d: RESET in UNINIT sets the register to FFFFFFFF. -/
theorem test_crc32Reset_register :
    (after (exec .crc32Reset State.reset)).map (fun t => (t.crc32.ph, t.crc32.crc)) =
      some (.ready, 0xFFFFFFFF) :=
  by decide

/-- P2, V14: bytes 10 to 69 of the pattern complete the buffered block and leave six bytes; byte 6 is stale. -/
theorem test_md4Update_crosses_block :
    (after (exec (.md4Update (slice (pat 70) 10 69)) (ready (pat 10) 0))).map
        (fun t => (t.md4.h, t.md4.len, memRead t.md4.buf 0 8)) =
      some (⟨0x4ECABFD4, 0xA26EF3A6, 0xC90C1563, 0xDB599A46⟩, 70,
        [0x40, 0x41, 0x42, 0x43, 0x44, 0x45, 0x06, 0x07]) :=
  by decide +kernel

/-- P2: the first ten bytes only go to the buffer. -/
theorem test_md4Update_fits :
    (after (exec (.md4Update (slice (pat 70) 0 9)) (ready [] 0))).map
        (fun t => (t.md4.h, t.md4.len, memRead t.md4.buf 0 10)) =
      some (md4Iv, 10, [0x00, 0x01, 0x02, 0x03, 0x04, 0x05, 0x06, 0x07, 0x08, 0x09]) :=
  by decide +kernel

/-- P2, V19a: bytes 10 to 69 of the pattern complete the buffered block and leave six bytes; byte 6 is stale. -/
theorem test_md5Update_crosses_block :
    (after (exec (.md5Update (slice (pat 70) 10 69)) (ready (pat 10) 0))).map
        (fun t => (t.md5.h, t.md5.len, memRead t.md5.buf 0 8)) =
      some (⟨0x9144D9CA, 0xD901E4C9, 0x72FC5B38, 0x625FF51E⟩, 70,
        [0x40, 0x41, 0x42, 0x43, 0x44, 0x45, 0x06, 0x07]) :=
  by decide +kernel

/-- P2: the first ten bytes only go to the buffer. -/
theorem test_md5Update_fits :
    (after (exec (.md5Update (slice (pat 70) 0 9)) (ready [] 0))).map
        (fun t => (t.md5.h, t.md5.len, memRead t.md5.buf 0 10)) =
      some (md5Iv, 10, [0x00, 0x01, 0x02, 0x03, 0x04, 0x05, 0x06, 0x07, 0x08, 0x09]) :=
  by decide +kernel

/-- P2, V25: bytes 10 to 69 of the pattern complete the buffered block and leave six bytes; byte 6 is stale. -/
theorem test_sha1Update_crosses_block :
    (after (exec (.sha1Update (slice (pat 70) 10 69)) (ready (pat 10) 0))).map
        (fun t => (t.sha1.h, t.sha1.len, memRead t.sha1.buf 0 8)) =
      some (⟨0xB9AC757B, 0xBC297925, 0x2E227274, 0x06872F94, 0xCBEA56A1⟩, 70,
        [0x40, 0x41, 0x42, 0x43, 0x44, 0x45, 0x06, 0x07]) :=
  by decide +kernel

/-- P2: the first ten bytes only go to the buffer. -/
theorem test_sha1Update_fits :
    (after (exec (.sha1Update (slice (pat 70) 0 9)) (ready [] 0))).map
        (fun t => (t.sha1.h, t.sha1.len, memRead t.sha1.buf 0 10)) =
      some (sha1Iv, 10, [0x00, 0x01, 0x02, 0x03, 0x04, 0x05, 0x06, 0x07, 0x08, 0x09]) :=
  by decide +kernel

/-- V35: the register after "12345". -/
theorem test_crc32Update_first_piece :
    (after (exec (.crc32Update [0x31, 0x32, 0x33, 0x34, 0x35]) (ready [] 0xFFFFFFFF))).map
        (fun t => t.crc32.crc) = some 0x340AC5E3 :=
  by decide +kernel

/-- V35: and after "6789". -/
theorem test_crc32Update_second_piece :
    (after (exec (.crc32Update [0x36, 0x37, 0x38, 0x39]) (ready [] 0x340AC5E3))).map
        (fun t => t.crc32.crc) = some 0x340BC6D9 :=
  by decide +kernel

/-- V15b: FINISH after "abc" latches the digest and leaves FINISHED. -/
theorem test_md4Finish_abc :
    (after (exec .md4Finish (ready abc 0))).map (fun t => (t.md4.ph, t.md4.dig.toList)) =
      some (.finished, [0xA4, 0x48, 0x01, 0x7A, 0xAF, 0x21, 0xD8, 0x52, 0x5F, 0xC1, 0x0A, 0xE8, 0x7A, 0xA6,
        0x72, 0x9D]) :=
  by decide +kernel

/-- V19c: FINISH after "abc" latches the digest and leaves FINISHED. -/
theorem test_md5Finish_abc :
    (after (exec .md5Finish (ready abc 0))).map (fun t => (t.md5.ph, t.md5.dig.toList)) =
      some (.finished, [0x90, 0x01, 0x50, 0x98, 0x3C, 0xD2, 0x4F, 0xB0, 0xD6, 0x96, 0x3F, 0x7D, 0x28, 0xE1,
        0x7F, 0x72]) :=
  by decide +kernel

/-- V26b: FINISH after "abc" latches the digest and leaves FINISHED. -/
theorem test_sha1Finish_abc :
    (after (exec .sha1Finish (ready abc 0))).map (fun t => (t.sha1.ph, t.sha1.dig.toList)) =
      some (.finished, [0xA9, 0x99, 0x3E, 0x36, 0x47, 0x06, 0x81, 0x6A, 0xBA, 0x3E, 0x25, 0x71, 0x78, 0x50,
        0xC2, 0x6C, 0x9C, 0xD0, 0xD8, 0x9D]) :=
  by decide +kernel

/-- V40d: FINISH after PAT(56) compresses twice. -/
theorem test_md4Finish_two_blocks :
    (after (exec .md4Finish (ready (pat 56) 0))).map (fun t => t.md4.dig.toList) =
      some [0xB8, 0xE9, 0x4B, 0x64, 0x08, 0xBB, 0xFA, 0x6E, 0xC9, 0x80, 0x5B, 0xF2, 0x1B, 0xC0,
        0x5C, 0xBD] :=
  by decide +kernel

/-- V40d: FINISH after PAT(56) compresses twice. -/
theorem test_md5Finish_two_blocks :
    (after (exec .md5Finish (ready (pat 56) 0))).map (fun t => t.md5.dig.toList) =
      some [0x51, 0xFD, 0xD1, 0xAC, 0xDA, 0x72, 0x40, 0x5D, 0xFD, 0xFA, 0x03, 0xFC, 0xB8, 0x58,
        0x96, 0xD7] :=
  by decide +kernel

/-- V40d: FINISH after PAT(56) compresses twice. -/
theorem test_sha1Finish_two_blocks :
    (after (exec .sha1Finish (ready (pat 56) 0))).map (fun t => t.sha1.dig.toList) =
      some [0x63, 0x6E, 0x2E, 0xC6, 0x98, 0xDA, 0xC9, 0x03, 0x49, 0x8E, 0x64, 0x8B, 0xD2, 0xF3,
        0xAF, 0x64, 0x1D, 0x3C, 0x88, 0xCB] :=
  by decide +kernel

/-- V34: FINISH latches CADBBE3D XOR FFFFFFFF, big-endian. -/
theorem test_crc32Finish_abc :
    (after (exec .crc32Finish (ready [] 0xCADBBE3D))).map (fun t => (t.crc32.ph, t.crc32.dig.toList)) =
      some (.finished, [0x35, 0x24, 0x41, 0xC2]) :=
  by decide +kernel

/-- V32: the payload of 00FFFFFF is ff 00 00 00, not 00 00 00 ff. -/
theorem test_crc32Finish_big_endian :
    (after (exec .crc32Finish (ready [] 0x00FFFFFF))).map (fun t => t.crc32.dig.toList) =
      some [0xFF, 0x00, 0x00, 0x00] :=
  by decide +kernel

/-- R80: an accepted GETHASH answers 00 and the latch, byte 0 first. -/
theorem test_md4GetHash_bytes :
    (after (exec .md4GetHash finished)).map (fun t => t.responses.map Response.bytes) =
      some [0x00 :: pat 16] :=
  by decide +kernel

/-- V48e: GETHASH in READY answers 02. -/
theorem test_md4GetHash_in_ready :
    (after (exec .md4GetHash (ready abc 0))).map (fun t => t.responses.map Response.bytes) =
      some [[0x02]] :=
  by decide +kernel

/-- R80: an accepted GETHASH answers 00 and the latch, byte 0 first. -/
theorem test_md5GetHash_bytes :
    (after (exec .md5GetHash finished)).map (fun t => t.responses.map Response.bytes) =
      some [0x00 :: pat 16] :=
  by decide +kernel

/-- V48e: GETHASH in READY answers 02. -/
theorem test_md5GetHash_in_ready :
    (after (exec .md5GetHash (ready abc 0))).map (fun t => t.responses.map Response.bytes) =
      some [[0x02]] :=
  by decide +kernel

/-- R80: an accepted GETHASH answers 00 and the latch, byte 0 first. -/
theorem test_sha1GetHash_bytes :
    (after (exec .sha1GetHash finished)).map (fun t => t.responses.map Response.bytes) =
      some [0x00 :: pat 20] :=
  by decide +kernel

/-- V48e: GETHASH in READY answers 02. -/
theorem test_sha1GetHash_in_ready :
    (after (exec .sha1GetHash (ready abc 0))).map (fun t => t.responses.map Response.bytes) =
      some [[0x02]] :=
  by decide +kernel

/-- R80: an accepted GETHASH answers 00 and the latch, byte 0 first. -/
theorem test_crc32GetHash_bytes :
    (after (exec .crc32GetHash finished)).map (fun t => t.responses.map Response.bytes) =
      some [0x00 :: pat 4] :=
  by decide +kernel

/-- V48e: GETHASH in READY answers 02. -/
theorem test_crc32GetHash_in_ready :
    (after (exec .crc32GetHash (ready abc 0))).map (fun t => t.responses.map Response.bytes) =
      some [[0x02]] :=
  by decide +kernel

/-- V48g, V48h: in FINISHED an empty UPDATE and a FINISH are rejected and nothing changes. -/
theorem test_md4_use_after_finish :
    (after (exec (.md4Update []) finished)).map (fun t => (t.md4, t.responses.map Response.bytes)) =
        some (finished.md4, [[0x02]]) ∧
      (after (exec .md4Finish finished)).map (fun t => (t.md4, t.responses.map Response.bytes)) =
        some (finished.md4, [[0x02]]) :=
  by decide +kernel

/-- V48g, V48h: in FINISHED an empty UPDATE and a FINISH are rejected and nothing changes. -/
theorem test_md5_use_after_finish :
    (after (exec (.md5Update []) finished)).map (fun t => (t.md5, t.responses.map Response.bytes)) =
        some (finished.md5, [[0x02]]) ∧
      (after (exec .md5Finish finished)).map (fun t => (t.md5, t.responses.map Response.bytes)) =
        some (finished.md5, [[0x02]]) :=
  by decide +kernel

/-- V48g, V48h: in FINISHED an empty UPDATE and a FINISH are rejected and nothing changes. -/
theorem test_sha1_use_after_finish :
    (after (exec (.sha1Update []) finished)).map (fun t => (t.sha1, t.responses.map Response.bytes)) =
        some (finished.sha1, [[0x02]]) ∧
      (after (exec .sha1Finish finished)).map (fun t => (t.sha1, t.responses.map Response.bytes)) =
        some (finished.sha1, [[0x02]]) :=
  by decide +kernel

/-- V48g, V48h: in FINISHED an empty UPDATE and a FINISH are rejected and nothing changes. -/
theorem test_crc32_use_after_finish :
    (after (exec (.crc32Update []) finished)).map (fun t => (t.crc32, t.responses.map Response.bytes)) =
        some (finished.crc32, [[0x02]]) ∧
      (after (exec .crc32Finish finished)).map (fun t => (t.crc32, t.responses.map Response.bytes)) =
        some (finished.crc32, [[0x02]]) :=
  by decide +kernel

/-- V48k: the byte 10 answers 01 and consumes one byte. -/
theorem test_illegal_word :
    (after (step (State.reset.offer [0x10, 0x00]))).map
        (fun t => (t.input, t.responses.map Response.bytes)) = some ([0x00], [[0x01]]) :=
  by decide

/-- V48a: UPDATE "abc" in UNINIT answers 02 and consumes 8 bytes. -/
theorem test_rejected_update_consumes_payload :
    (after (step (State.reset.offer [0x01, 0x03, 0x00, 0x00, 0x00, 0x61, 0x62, 0x63]))).map
        (fun t => (t.input, t.responses.map Response.bytes)) = some ([], [[0x02]]) :=
  by decide

/-- V10, V12: the padded empty message, and zeros on zero state words. -/
theorem test_md4Compress_values :
    md4Compress md4Iv emptyBlock = ⟨0xE0CFD631, 0x31E96AD1, 0xD7593CB7, 0xC089C0E0⟩ ∧
      md4Compress zeroHash4 (zeroBytes 64) = ⟨0x33C84836, 0xC19152D1, 0xE762D9DF, 0xA20027BD⟩ :=
  by decide +kernel

/-- The trace of V10 after steps 0 and 1. -/
theorem test_md4Step_trace :
    md4Step (wordsLe emptyBlock) md4Iv 0 = ⟨0x10325476, 0x000003F8, 0xEFCDAB89, 0x98BADCFE⟩ ∧
      md4Step (wordsLe emptyBlock) ⟨0x10325476, 0x000003F8, 0xEFCDAB89, 0x98BADCFE⟩ 1 =
        ⟨0x98BADCFE, 0x769A0254, 0x000003F8, 0xEFCDAB89⟩ :=
  by decide +kernel

/-- V16, V18. -/
theorem test_md5Compress_values :
    md5Compress md5Iv emptyBlock = ⟨0xD98C1DD4, 0x04B2008F, 0x980980E9, 0x7E42F8EC⟩ ∧
      md5Compress zeroHash4 (zeroBytes 64) = ⟨0xF7CD1C97, 0xA5483681, 0x2B68D832, 0xF90CA639⟩ :=
  by decide +kernel

/-- The trace of V16 after steps 0 and 63. -/
theorem test_md5Step_trace :
    md5Step (wordsLe emptyBlock) md5Iv 0 = ⟨0x10325476, 0xA5202774, 0xEFCDAB89, 0x98BADCFE⟩ ∧
      md5Step (wordsLe emptyBlock) ⟨0x30130182, 0xFF4EA3EB, 0x6E10A476, 0x7246FAD3⟩ 63 =
        ⟨0x7246FAD3, 0x14E45506, 0xFF4EA3EB, 0x6E10A476⟩ :=
  by decide +kernel

/-- R146: the message-word orders in closed form, 5j + 1, 3j + 5 and 7j modulo 16, and the 64 constants T are distinct. -/
theorem test_md5_message_order :
    (md5KX 2 = (List.range 16).map fun j => (5 * j + 1) % 16) ∧
      (md5KX 3 = (List.range 16).map fun j => (3 * j + 5) % 16) ∧
      (md5KX 4 = (List.range 16).map fun j => 7 * j % 16) ∧ md5T.length = 64 ∧ md5T.Nodup :=
  by decide +kernel

/-- V21, V22. -/
theorem test_sha1Compress_values :
    sha1Compress sha1Iv emptyBlock =
        ⟨0xDA39A3EE, 0x5E6B4B0D, 0x3255BFEF, 0x95601890, 0xAFD80709⟩ ∧
      sha1Compress sha1Iv (zeroBytes 64) =
        ⟨0x92B404E5, 0x56588CED, 0x6C1ACD4E, 0xBF053F68, 0x09F73A93⟩ :=
  by decide +kernel

/-- The trace of V21 after steps 0 and 79. -/
theorem test_sha1Step_trace :
    sha1Step (sha1Schedule emptyBlock) sha1Iv 0 =
        ⟨0x1FB498B3, 0x67452301, 0x7BF36AE2, 0x98BADCFE, 0x10325476⟩ ∧
      sha1Step (sha1Schedule emptyBlock)
          ⟨0x6E9D9F84, 0x666B8BC6, 0x852DC41A, 0xEC052519, 0xC57A6345⟩ 79 =
        ⟨0x72F480ED, 0x6E9D9F84, 0x999AE2F1, 0x852DC41A, 0xEC052519⟩ :=
  by decide +kernel

/-- The eight shifts of 95_test_vectors.md section 6 for the byte 31. -/
theorem test_crcShift_trace :
    (List.range 8).map (fun k => crcShifts (k + 1) 0xFFFFFFCE) =
      [0x7FFFFFE7, 0xD2477CD3, 0x849B3D49, 0xAFF51D84, 0x57FA8EC2, 0x2BFD4761, 0xF8462090,
       0x7C231048] :=
  by decide +kernel

/-- V30: the register after "a". -/
theorem test_crcStep_a :
    crcStep 0xFFFFFFFF 0x61 = 0x174841BC :=
  by decide +kernel

/-- V42a to V42f: the pad lengths at the boundaries of `index`. -/
theorem test_padding_lengths :
    [0, 3, 55, 56, 63, 64].map (fun n => (padding md4Alg n).length) = [64, 61, 9, 72, 65, 64] :=
  by decide +kernel

/-- V42h: the bit length is reduced modulo 2^64. -/
theorem test_padding_length_field :
    (padding md4Alg 0x2000000000000003).drop 53 =
        [0x18, 0x00, 0x00, 0x00, 0x00, 0x00, 0x00, 0x00] ∧
      (padding sha1Alg 0x2000000000000003).drop 53 =
        [0x00, 0x00, 0x00, 0x00, 0x00, 0x00, 0x00, 0x18] :=
  by decide +kernel

/-- V55, P5: with three-byte chunks "abca" has the chunks "abc" and "a", and its root is the MD4 of their digests. -/
theorem test_ed2k_root_two_chunks :
    ed2kRoot 3 [0x61, 0x62, 0x63, 0x61] =
      some [0x5D, 0x99, 0x83, 0xC9, 0x23, 0x1A, 0x0D, 0x2C, 0x26, 0x2B, 0xA6, 0xFB, 0x72, 0x4B,
        0x9F, 0xBC] :=
  by decide +kernel

/-- P3: a CRC32 and a SHA-1 were requested; the MD5 slot is left untouched (R210). -/
theorem test_result_record_offsets :
    ((resultRecord (zeroBytes 56) (pat 16) (some [0xCB, 0xF4, 0x39, 0x26]) none
        (some (List.replicate 20 0xEE))).toList).drop 15 =
      [0x0F, 0xCB, 0xF4, 0x39, 0x26] ++ List.replicate 16 0x00 ++ List.replicate 20 0xEE :=
  by decide +kernel

/-- R208: with three-byte chunks the blocks "ab" and "ca" make the chunks "abc" and "a", the second block being split at the boundary. -/
theorem test_block_straddles_boundary :
    chunkStreamCommands 3 [[0x61, 0x62], [0x63, 0x61]] =
      [.md4Reset, .md4Update [0x61, 0x62], .md4Update [0x63], .md4Finish, .md4GetHash, .md4Reset,
       .md4Update [0x61], .md4Finish, .md4GetHash] :=
  by decide

/-- R207, R208: one block with two boundaries, and a file that is an exact multiple of the chunk size, which has no trailing empty chunk. -/
theorem test_block_holds_boundaries :
    chunkStreamCommands 1 [abc] =
        [.md4Reset, .md4Update [0x61], .md4Finish, .md4GetHash, .md4Reset, .md4Update [0x62],
         .md4Finish, .md4GetHash, .md4Reset, .md4Update [0x63], .md4Finish, .md4GetHash] ∧
      chunkStreamCommands 3 [abc] = [.md4Reset, .md4Update abc, .md4Finish, .md4GetHash] ∧
      chunkStreamCommands 3 [[]] = [] :=
  by decide

/-- R207: five bytes in chunks of three are three bytes and two. -/
theorem test_chunk_cut :
    chunksOf 3 (pat 5) = [[0x00, 0x01, 0x02], [0x03, 0x04]] :=
  by decide

/-- R201: a message one byte longer than one UPDATE can carry is not sent in one, and its pieces fit. -/
theorem test_hash_is_cut :
    payloadPieces tooLong ≠ [tooLong] ∧ ∀ p ∈ payloadPieces tooLong, payloadFits p = true :=
  by
    refine ⟨fun h => ?_, fun p hp => payloadPieces_fit hp⟩
    have hf := payloadPieces_fit (data := tooLong) (piece := tooLong) (by rw [h]; exact .head _)
    rw [payloadFits_tooLong] at hf
    cases hf

/-- R34: every engine UNINIT after hardware reset, coded 0 (R27). -/
theorem test_reset_phases :
    (∀ e : Engine, (State.reset.phaseOf e).code = 0#2) :=
  by
    intro e; cases e <;> decide

/-! ### Witnesses: the hypotheses of each obligation can be met -/

/-- A well-formed command of each format. -/
theorem test_witness_DecodeOfEncode :
    Instr.md4Reset.wellFormed = true ∧ (Instr.sha1Update abc).wellFormed = true ∧
      (Instr.crc32Update (List.replicate (2 ^ 32 - 1) 0)).wellFormed = true := by
  refine ⟨rfl, by decide, ?_⟩
  rw [Instr.wellFormed, payloadFits, List.length_replicate]; decide

/-- A stream that begins with a command and goes on. -/
theorem test_witness_EncodeOfDecode :
    decode [0x05, 0x01, 0x00, 0x00, 0x00, 0x61, 0x06] = .command (.md5Update [0x61]) [0x06] := by
  decide

/-- The least and the greatest illegal word, and the greatest legal one. -/
theorem test_witness_IllegalWordsAreRejected :
    16 ≤ (0x10 : Byte).toNat ∧ 16 ≤ (0xFF : Byte).toNat ∧ (0x0F : Byte).toNat < 16 ∧
      (State.reset.offer [0x10]).input = [0x10] := by decide

/-- A complete command, an illegal word and a proper start of a command. -/
theorem test_witness_DecodingIsTotal :
    decode [0x02] = .command .md4Finish [] ∧ decode [0x10] = .illegal 0x10 [] ∧
      decode [0x01, 0x01, 0x00, 0x00, 0x00] = .incomplete ∧
      (State.reset.offer [0x01, 0x01, 0x00, 0x00, 0x00]).input =
        [0x01, 0x01, 0x00, 0x00, 0x00] := by decide

/-- A stream whose first command is decoded. -/
theorem test_witness_StepRunsDecodedCommand :
    decode (State.reset.offer [0x08, 0x09]).input = .command .sha1Reset [0x09] := by decide

/-- One state that waits and one that does not. -/
theorem test_witness_WaitsExactlyWhenIncomplete :
    decode State.reset.input = .incomplete ∧ decode (State.reset.offer [0x00]).input ≠ .incomplete := by
  decide

/-- Every engine READY, and every engine in another phase: both clauses of the statements about
UPDATE and FINISH, with an empty payload, a short one and one that fills the block. -/
theorem test_witness_UpdateFinish (e : Engine) :
    (ready abc 0).phaseOf e = .ready ∧ State.reset.phaseOf e ≠ .ready ∧
      finished.phaseOf e ≠ .ready := by
  cases e <;> decide

/-- Every engine FINISHED, and every engine in another phase: both clauses of the statements about
GETHASH. -/
theorem test_witness_GetHash (e : Engine) :
    finished.phaseOf e = .finished ∧ State.reset.phaseOf e ≠ .finished ∧
      (ready abc 0).phaseOf e ≠ .finished := by
  cases e <;> decide

/-- Commands that answer a next state: an accepted RESET, an accepted FINISH, a rejected FINISH and
an accepted GETHASH. -/
theorem test_witness_PhaseMachine :
    (∃ t, exec .md4Reset State.reset = .next t) ∧ (∃ t, exec .md5Finish (ready abc 0) = .next t) ∧
      (∃ t, exec .sha1Finish finished = .next t) ∧ (∃ t, exec .crc32GetHash finished = .next t) :=
  ⟨⟨_, rfl⟩, ⟨_, rfl⟩, ⟨_, rfl⟩, ⟨_, rfl⟩⟩

/-- For each engine, two states that agree on it and differ elsewhere, and a command of it that
answers a next state in both. -/
theorem test_witness_CommandsTouchOnlyTheirEngine :
    ∃ s t u, exec .crc32GetHash finished = .next t ∧ exec .crc32GetHash s = .next u ∧
      s.crc32 = finished.crc32 ∧ s.md4 ≠ finished.md4 :=
  ⟨finished.setMd4 State.reset.md4, _, _, rfl, rfl, rfl, by decide⟩

/-- READY engines whose buffer holds 0, 10 and 63 bytes, an UPDATE that answers a next state, and
the first and last offset; then the bytes the statement's function gives for P2. -/
theorem test_witness_UpdateStoresInBuffer :
    (∃ t, exec (.md4Update abc) (ready [] 0) = .next t) ∧
    (∃ t, exec (.md5Update (pat 60)) (ready (pat 10) 0) = .next t) ∧
    (∃ t, exec (.sha1Update [0x61]) (ready (pat 63) 0) = .next t) ∧
    (ready (pat 63) 0).sha1.ph = .ready ∧ 0 < 64 ∧ 63 < 64 :=
  ⟨⟨_, rfl⟩, ⟨_, rfl⟩, ⟨_, rfl⟩, rfl, by decide, by decide⟩

/-- The buffer after the second UPDATE of P2: `40 41 42 43 44 45 06 07 08 .. 3f`. -/
theorem test_updatedByte_p2 :
    (List.range 64).map (updatedByte (takeBytes 64 (pat 10)) 10 (slice (pat 70) 10 69)) =
      [0x40, 0x41, 0x42, 0x43, 0x44, 0x45] ++ slice (pat 70) 6 63 := by decide +kernel

/-- Two commands to different engines. -/
theorem test_witness_EnginesCommute :
    Instr.md4Reset.engine ≠ (Instr.md5Update abc).engine := by decide

/-- An engine that has absorbed "abc", and one that has absorbed nothing. -/
theorem test_witness_AccumulatorInvariant :
    absorbed md4Alg (ready abc 0).md4 abc ∧ absorbed sha1Alg (ready [] 0).sha1 [] ∧
      abc.length < 2 ^ 61 :=
  ⟨⟨rfl, rfl, rfl, by decide⟩, ⟨rfl, rfl, rfl, by decide⟩, by decide⟩

/-- An engine that has absorbed 55 bytes and one that has absorbed 56, with the length fields the
last clause asks for. -/
theorem test_witness_FinishGivesDigest :
    absorbed md5Alg (ready (pat 55) 0).md5 (pat 55) ∧
      absorbed sha1Alg (ready (pat 56) 0).sha1 (pat 56) ∧
      (∀ v, (md5Alg.enc64 v).length = 8) ∧ (∀ v, (sha1Alg.enc64 v).length = 8) :=
  ⟨⟨rfl, rfl, rfl, by decide⟩, ⟨rfl, rfl, rfl, by decide⟩, fun _ => rfl, fun _ => rfl⟩

/-- Both encodings of the length field, and an engine on each side of the padding boundary. -/
theorem test_witness_PaddingBlocks :
    md4Alg.enc64 = encLe64 ∧ sha1Alg.enc64 = encBe64 ∧
      (ready (pat 55) 0).md4.len.toNat % 64 = 55 ∧ (ready (pat 56) 0).md4.len.toNat % 64 = 56 :=
  ⟨rfl, rfl, by decide, by decide⟩

/-- The longest message the statement admits, one that needs a single UPDATE, and one that does
not. -/
theorem test_witness_HashSequence :
    (List.replicate (2 ^ 61 - 1) (0 : Byte)).length < 2 ^ 61 ∧ abc.length < 2 ^ 32 ∧
      tooLong.length < 2 ^ 61 ∧ ¬ tooLong.length < 2 ^ 32 := by
  refine ⟨?_, by decide, ?_, ?_⟩
  · rw [List.length_replicate]; decide
  · rw [tooLong, List.length_replicate]; decide
  · rw [tooLong, List.length_replicate]; decide

/-- No piece, an empty piece among others, and the longest single piece the statement admits. -/
theorem test_witness_DigestIgnoresSplitting :
    ([] : List (List Byte)).flatten.length < 2 ^ 61 ∧
      ([[0x61], [], [0x62, 0x63]] : List (List Byte)).flatten.length < 2 ^ 61 ∧
      [List.replicate (2 ^ 61 - 1) (0 : Byte)].flatten.length < 2 ^ 61 := by
  refine ⟨by decide, by decide, ?_⟩
  rw [List.flatten_singleton, List.length_replicate]; decide

/-- Two well-formed commands and the stream of their bytes with a byte after them. -/
theorem test_witness_CommandStreamRunsCommands :
    (∀ i ∈ [Instr.md5Reset, .md5Update [0x61]], i.wellFormed = true) ∧
      (State.reset.offer [0x04, 0x05, 0x01, 0x00, 0x00, 0x00, 0x61, 0x06]).input =
        encodeAll [.md5Reset, .md5Update [0x61]] ++ [0x06] := by decide

/-- The stream of P1 is the bytes of `MD4.HASH "abc"`. -/
theorem test_witness_ByteStreamHash :
    (State.reset.offer
      [0x00, 0x01, 0x03, 0x00, 0x00, 0x00, 0x61, 0x62, 0x63, 0x02, 0x03]).input =
      encodeAll (hashCommands .md4 abc) ++ [] ∧ abc.length < 2 ^ 32 := by decide

/-- A state with FINISHED engines and a command waiting. -/
theorem test_witness_FinishedEnginesStayZero :
    finishedAreZero (finished.offer [0x03]) ∧ ∃ t, step (finished.offer [0x03]) = .next t :=
  ⟨⟨fun _ => ⟨rfl, rfl, rfl⟩, fun _ => ⟨rfl, rfl, rfl⟩, fun _ => ⟨rfl, rfl, rfl⟩⟩, ⟨_, rfl⟩⟩

/-- A state with READY engines that hold nothing yet and a command waiting. -/
theorem test_witness_ReadyEnginesHoldMessages :
    readyHoldMessages ((ready [] 0xFFFFFFFF).offer [0x02]) ∧
      ∃ t, step ((ready [] 0xFFFFFFFF).offer [0x02]) = .next t :=
  ⟨⟨fun _ => ⟨[], rfl, rfl, rfl, by decide⟩, fun _ => ⟨[], rfl, rfl, rfl, by decide⟩,
    fun _ => ⟨[], rfl, rfl, rfl, by decide⟩, fun _ => ⟨[], rfl⟩⟩, ⟨_, rfl⟩⟩

/-- Two states that agree where the spec gives a value and differ in a digest latch of an engine in
UNINIT, with a command waiting. -/
theorem test_witness_UnspecifiedRegistersAreUnobservable :
    ∃ t, specAgree (State.reset.offer [0x00]) t ∧ t.md4.dig ≠ State.reset.md4.dig ∧
      ∃ s', step (State.reset.offer [0x00]) = .next s' :=
  ⟨(State.reset.offer [0x00]).setMd4 { State.reset.md4 with dig := zeroBytes 16 },
    ⟨⟨rfl, nofun, nofun⟩, ⟨rfl, nofun, nofun⟩,
      ⟨rfl, nofun, nofun⟩, ⟨rfl, nofun, nofun⟩,
      rfl, rfl, rfl⟩, by decide, ⟨_, rfl⟩⟩

/-- A command and an illegal word, each with its step. -/
theorem test_witness_OneResponsePerCommand :
    decode (finished.offer [0x0F]).input = .command .crc32GetHash [] ∧
      (∃ t, step (finished.offer [0x0F]) = .next t) ∧
      decode (finished.offer [0xFF]).input = .illegal 0xFF [] ∧
      (∃ t, step (finished.offer [0xFF]) = .next t) :=
  ⟨by decide, ⟨_, rfl⟩, by decide, ⟨_, rfl⟩⟩

/-- A step with nothing recorded that is rejected, one that is not, and one with a rejection
already recorded. -/
theorem test_witness_FirstRejectionIsKept :
    (∃ t, step (State.reset.offer [0x02]) = .next t ∧ t.fault = some (.protocolError .md4 .finish)) ∧
    (∃ t, step (State.reset.offer [0x00]) = .next t ∧ t.fault = none) ∧
    (∃ t, step ((State.reset.recordFault (.illegalCommand 0x10)).offer [0x02]) = .next t ∧
      t.fault = some (.illegalCommand 0x10)) :=
  ⟨⟨_, rfl, rfl⟩, ⟨_, rfl, rfl⟩, ⟨_, rfl, rfl⟩⟩

/-- States without a rejection, for each case of the statement. -/
theorem test_witness_ContractStepStopsAtRejections :
    (State.reset.offer [0x00]).safe = true ∧ (State.reset.offer [0x03]).safe = true ∧
      (State.reset.offer [0x10]).safe = true ∧ State.reset.safe = true ∧
      decode (State.reset.offer [0x00]).input = .command .md4Reset [] ∧
      decode (State.reset.offer [0x03]).input = .command .md4GetHash [] ∧
      decode (State.reset.offer [0x10]).input = .illegal 0x10 [] ∧
      decode State.reset.input = .incomplete := by decide

/-- A command that is not RESET, and a stream whose command, whose illegal word and whose incomplete
command hardware reset strikes. -/
theorem test_witness_HardwareResetCreatesNothing :
    (Instr.md4Update abc).op ≠ .reset ∧
      decode ((ready abc 0).offer [0x02, 0x03]).input = .command .md4Finish [0x03] ∧
      decode ((ready abc 0).offer [0x10, 0x03]).input = .illegal 0x10 [0x03] ∧
      decode ((ready abc 0).offer [0x01, 0x03]).input = .incomplete := by decide

/-- An illegal word that hardware reset strikes is consumed and not answered (R76, R260). -/
theorem test_reset_strikes_illegal_word :
    (State.reset.offer [0x10, 0x03]).hardwareResetDuring.input = [0x03] ∧
      (State.reset.offer [0x10, 0x03]).hardwareResetDuring.responses = [] := by decide

/-- The four bytes of the minimal boot, and one byte after them. -/
theorem test_witness_MinimalBoot :
    (State.reset.offer [0x00, 0x04, 0x08, 0x0C, 0x01]).input =
      [0x00, 0x04, 0x08, 0x0C] ++ [0x01] := by decide

/-- The lowest and the highest bit with a value at it (the majority of 1, 1 and 0 is 1), and the
first and last step of each round of SHA-1's table. -/
theorem test_witness_RoundFunctionsBitByBit :
    0 < 32 ∧ 31 < 32 ∧ (md4G 0x80000000 0x80000000 0).getLsbD 31 = true ∧
      (md5G 0 1 0).getLsbD 0 = true ∧ (sha1Maj 0x80000000 0x80000000 0).getLsbD 31 = true ∧
      [0, 19, 20, 39, 40, 59, 60, 79].all (fun i => decide (i < 80)) = true := by decide

/-- The first and last step of each round of MD4. -/
theorem test_witness_Md4StepsUnrolled :
    [0, 15, 16, 31, 32, 47].all (fun j => decide (j < 48)) = true ∧ 0 < 16 ∧ 15 < 16 := by decide

/-- The first and last step of each round of MD5. -/
theorem test_witness_Md5StepsUnrolled :
    [0, 15, 16, 31, 32, 47, 48, 63].all (fun j => decide (j < 64)) = true ∧ 0 < 16 ∧ 15 < 16 := by
  decide

/-- The first and last word of each clause, and their values for V21. -/
theorem test_witness_Sha1ScheduleRecurrence :
    (0 < 16 ∧ 15 < 16) ∧ (16 ≤ 16 ∧ 79 < 80) ∧ 0 < 80 ∧
      [0, 15, 16, 19, 22, 79].map (fun i => (sha1Schedule emptyBlock).getD i 0) =
        [0x80000000, 0x00000000, 0x00000001, 0x00000002, 0x00000004, 0x00200080] := by
  decide +kernel

/-- A register with its low bit set and one with it clear (44_crc32.md R182). -/
theorem test_witness_CrcTableForm :
    crcShift 0x7FFFFFE7 = 0xD2477CD3 ∧ crcShift 0xFFFFFFCE = 0x7FFFFFE7 := by decide

/-- The first and last byte of a word and of a 64-bit number. -/
theorem test_witness_ByteOrderHelpers :
    0 < 4 ∧ 3 < 4 ∧ 0 < 8 ∧ 7 < 8 ∧ le32 0x80 0x63 0x62 0x61 = 0x61626380 ∧
      be32 0x61 0x62 0x63 0x80 = 0x61626380 := by decide

/-- The least and the greatest rotation amount at the lowest and the highest bit, and the rotation
written out in the trace of V10: rotl(7F, 3) = 3F8. -/
theorem test_witness_RotlRotates :
    (0 < 1 ∧ 1 < 32) ∧ (0 < 31 ∧ 31 < 32) ∧ rotl 0x0000007F 3 = 0x000003F8 ∧
      rotl 0x80000000 1 = 0x00000001 := by decide

/-- 56 bytes before the length field. -/
theorem test_witness_LengthFieldWords : (pat 56).length = 56 := by decide

/-- Files of one byte, of one chunk and of one chunk and a byte. -/
theorem test_witness_Ed2kRootOfOneAndTwoChunks :
    0 < ([0x00] : List Byte).length ∧ ([0x00] : List Byte).length ≤ ed2kChunkSize ∧
      (List.replicate ed2kChunkSize (0 : Byte)).length ≤ ed2kChunkSize ∧
      (List.replicate (ed2kChunkSize + 1) (0 : Byte)).length = ed2kChunkSize + 1 := by
  refine ⟨by decide, by decide, ?_, ?_⟩ <;> rw [List.length_replicate]

/-- A file of two chunks, and one of a single chunk. -/
theorem test_witness_Ed2kCommandsGiveRoot :
    0 < 3 ∧ [0x61, 0x62, 0x63, 0x61] ≠ ([] : List Byte) ∧
      ([0x61, 0x62, 0x63, 0x61] : List Byte).length < 2 ^ 61 ∧
      (chunksOf 3 [0x61, 0x62, 0x63, 0x61]).length = 2 ∧ (chunksOf 3 abc).length = 1 ∧
      0 + 1 < (chunksOf 3 [0x61, 0x62, 0x63, 0x61]).length ∧
      1 < (chunksOf 3 [0x61, 0x62, 0x63, 0x61]).length := by decide

/-- A block that straddles one boundary, with the least and the greatest part after it, and blocks
that make a file, an empty one among them. -/
theorem test_witness_BlockStreamGivesChunkHashes :
    (0 < 1 ∧ 1 < ([0x61, 0x62] : List Byte).length ∧ ([0x61, 0x62] : List Byte).length ≤ 1 + 3 ∧
        ([0x61, 0x62] : List Byte).length < 2 ^ 32) ∧
      (1 < (pat 4).length ∧ (pat 4).length ≤ 1 + 3 ∧ (pat 4).length < 2 ^ 32) ∧
      0 < 3 ∧ ([[0x61, 0x62], [], [0x63, 0x61]] : List (List Byte)).flatten ≠ [] ∧
      ([[0x61, 0x62], [], [0x63, 0x61]] : List (List Byte)).flatten.length < 2 ^ 61 := by decide

/-- Digests of the lengths asked for, and slots that were not requested. -/
theorem test_witness_ResultRecordLayout :
    (pat 16).length = 16 ∧ (∀ d, some (pat 4) = some d → d.length = 4) ∧
      (∀ d, (none : Option (List Byte)) = some d → d.length = 16) ∧
      (∀ d, some (pat 20) = some d → d.length = 20) := by
  refine ⟨by decide, ?_, ?_, ?_⟩ <;> intro d h <;> cases h <;> decide

end Sys2Proof.Tests
end

section
/-! SUPPORT. The rotation and the byte-order helpers (00_scope.md R11, R12), bit by bit and as
sums, and the statements about them. -/

namespace Sys2Proof.Machine

/-- A bit of the rotated word comes from the left shift at and above `n`, and from the right shift
below it (R11). -/
theorem getLsbD_rotl (x : Word) {n j : Nat} (hn : n < 32) (hj : j < 32) :
    (rotl x n).getLsbD j = if n ≤ j then x.getLsbD (j - n) else x.getLsbD (32 - n + j) := by
  rw [rotl, BitVec.getLsbD_or, BitVec.getLsbD_shiftLeft, BitVec.getLsbD_ushiftRight]
  split
  · have : x.getLsbD (32 - n + j) = false := BitVec.getLsbD_of_ge _ _ (by omega)
    simp [*]
  · have : j < n := by omega
    simp [*]

/-- Settles O53: bit `i + n` comes from the left shift where it stays below 32, and otherwise from
the right shift. -/
theorem rotlRotates : Obligations.RotlRotates := by
  intro x n i _ hn hi
  rw [getLsbD_rotl x hn (Nat.mod_lt _ (by decide))]
  by_cases hwrap : i + n < 32
  · rw [Nat.mod_eq_of_lt hwrap, if_pos (by omega), Nat.add_sub_cancel]
  · rw [show (i + n) % 32 = i + n - 32 by omega, if_neg (by omega)]
    congr 1
    omega

/-- The number two appended bit strings write: the first one counts above the second. -/
theorem toNat_append_eq_add {m n : Nat} (x : BitVec m) (y : BitVec n) :
    (x ++ y).toNat = 2 ^ n * x.toNat + y.toNat := by
  rw [BitVec.toNat_append, ← Nat.shiftLeft_add_eq_or_of_lt y.isLt, Nat.shiftLeft_eq, Nat.mul_comm]

theorem le32_toNat (b0 b1 b2 b3 : Byte) :
    (le32 b0 b1 b2 b3).toNat =
      b0.toNat + 2 ^ 8 * b1.toNat + 2 ^ 16 * b2.toNat + 2 ^ 24 * b3.toNat := by
  simp only [le32, toNat_append_eq_add]
  omega

/-- The two byte orders of a word are each other's reversal (R12). -/
theorem be32_eq_le32 (b0 b1 b2 b3 : Byte) : be32 b0 b1 b2 b3 = le32 b3 b2 b1 b0 := rfl

theorem encBe32_eq_reverse (v : Word) : encBe32 v = (encLe32 v).reverse := rfl

theorem encBe64_eq_reverse (v : DWord) : encBe64 v = (encLe64 v).reverse := rfl

/-- The `k` low byte fields of a number, lowest first: the form both `enc_le` helpers have (R12). -/
def byteFields (k : Nat) {w : Nat} (v : BitVec w) : List Byte :=
  (List.range k).map fun i => v.extractLsb' (8 * i) 8

theorem encLe32_eq_byteFields (v : Word) : encLe32 v = byteFields 4 v := rfl

theorem encLe64_eq_byteFields (v : DWord) : encLe64 v = byteFields 8 v := rfl

theorem extractLsb'_byte_toNat {w : Nat} (v : BitVec w) (start : Nat) :
    (v.extractLsb' start 8).toNat = v.toNat / 2 ^ start % 256 := by
  rw [BitVec.extractLsb'_toNat, Nat.shiftRight_eq_div_pow]

/-- Byte field `i` is bits `8i + 7` to `8i` (R12). -/
theorem byteFields_getD_toNat {k i w : Nat} (v : BitVec w) (h : i < k) :
    ((byteFields k v).getD i 0).toNat = v.toNat / 2 ^ (8 * i) % 256 := by
  rw [← extractLsb'_byte_toNat]
  simp [byteFields, List.getD_eq_getElem?_getD, h]

/-- `enc_le32` writes the bytes that `le32` reads (R12). -/
theorem encLe32_le32 (b0 b1 b2 b3 : Byte) : encLe32 (le32 b0 b1 b2 b3) = [b0, b1, b2, b3] := by
  have h0 := b0.isLt
  have h1 := b1.isLt
  have h2 := b2.isLt
  have h3 := b3.isLt
  simp only [encLe32, List.cons.injEq, and_true, ← BitVec.toNat_inj, extractLsb'_byte_toNat,
    le32_toNat]
  omega

/-- Settles O52: the little-endian helpers by their sums and byte fields, the big-endian ones as
their reversals. -/
theorem byteOrderHelpers : Obligations.ByteOrderHelpers := by
  refine ⟨fun b0 b1 b2 b3 => ⟨le32_toNat b0 b1 b2 b3, ?_, encLe32_le32 b0 b1 b2 b3, ?_⟩,
    fun v i hi => ⟨rfl, ?_, encBe32_eq_reverse v⟩, fun v i hi => ⟨rfl, ?_, encBe64_eq_reverse v⟩⟩
  · rw [be32_eq_le32, le32_toNat]
    omega
  · rw [be32_eq_le32, encBe32_eq_reverse, encLe32_le32]
    rfl
  · rw [encLe32_eq_byteFields, byteFields_getD_toNat v hi]
  · rw [encLe64_eq_byteFields, byteFields_getD_toNat v hi]

end Sys2Proof.Machine
end

section
/-! SUPPORT. The buffer after `Absorb_E` (40_block_buffer.md R101): the array written, then byte by
byte, and the statement about an accepted UPDATE. -/

namespace Sys2Proof.Machine

/-- A written byte reads as the sequence's, by its offset in the array (R13). -/
theorem byteAt_memWrite_getD {n : Nat} (b : Bytes n) {off : Nat} {s : List Byte} {i : Nat}
    (hi : i < n) (hlow : off ≤ i) (hhigh : i < off + s.length) :
    byteAt (memWrite b off s) i = s.getD (i - off) 0 := by
  have hin : i - off < s.length := by omega
  rw [byteAt_memWrite b off s hi, if_pos hlow, List.getElem?_eq_getElem hin,
    List.getD_eq_getElem _ _ hin, Option.getD_some]

/-- Byte `i` of the tail that `data` has from `fill` on, counted from the end of `data` (R101). -/
theorem blockTail_drop_getD (data : List Byte) (fill : Nat) {i : Nat}
    (h : i < (blockTail (data.drop fill)).length) :
    (blockTail (data.drop fill)).getD i 0 =
      data.getD (data.length - (blockTail (data.drop fill)).length + i) 0 := by
  have hlen := blockTail_length (data.drop fill)
  have hpos : data.length - (blockTail (data.drop fill)).length + i =
      fill + (64 * ((data.drop fill).length / 64) + i) := by
    rw [List.length_drop] at *
    omega
  rw [hpos, blockTail]
  simp only [List.getD_eq_getElem?_getD, List.getElem?_drop]

section

variable {σ : Type} {l : Nat} (alg : Algorithm σ l)

/-- Without a completed block the payload is written at `index` (R101, cases A and D). -/
theorem absorb_buf_of_lt (e : BlockEngine σ l) {data : List Byte}
    (h : bufIndex e + data.length < 64) :
    (absorb alg e data).buf = memWrite e.buf (bufIndex e) data := by
  by_cases h0 : bufIndex e = 0
  · have hdiv : data.length / 64 = 0 := by omega
    simp [absorb, absorbWhole, h0, hdiv]
  · simp [absorb, h0, h]

/-- With a completed block the buffer is first filled up, if bytes were waiting in it, and then the
tail of the rest is written at 0 (R101, cases B to D). -/
theorem absorb_buf_of_ge (e : BlockEngine σ l) {data : List Byte}
    (h : 64 ≤ bufIndex e + data.length) :
    (absorb alg e data).buf =
      memWrite (memWrite e.buf (bufIndex e) (data.take ((64 - bufIndex e) % 64))) 0
        (blockTail (data.drop ((64 - bufIndex e) % 64))) := by
  by_cases h0 : bufIndex e = 0
  · simp [absorb, absorbWhole, blockTail, h0]
  · have hfill : (64 - bufIndex e) % 64 = 64 - bufIndex e := by omega
    simp only [absorb, absorbWhole, blockTail, ne_eq, h0, not_false_iff, if_true,
      if_neg (Nat.not_lt.mpr h), hfill]

/-- The bytes that fill the buffer up lie from `index` on, when bytes were waiting in it; every
other byte is kept (R101, case B). -/
theorem byteAt_fill (e : BlockEngine σ l) {data : List Byte} {i : Nat} (hi : i < 64)
    (h : 64 ≤ bufIndex e + data.length) :
    byteAt (memWrite e.buf (bufIndex e) (data.take ((64 - bufIndex e) % 64))) i =
      if bufIndex e ≠ 0 ∧ bufIndex e ≤ i then data.getD (i - bufIndex e) 0 else byteAt e.buf i := by
  have hidx := bufIndex_lt e
  have hlen : (data.take ((64 - bufIndex e) % 64)).length = (64 - bufIndex e) % 64 := by
    rw [List.length_take]
    omega
  split
  · have hlt : i - bufIndex e < (64 - bufIndex e) % 64 := by omega
    rw [byteAt_memWrite_getD _ hi (by omega) (by omega), List.getD_eq_getElem?_getD,
      List.getElem?_take_of_lt hlt, List.getD_eq_getElem?_getD]
  · exact byteAt_memWrite_outside _ _ _ hi (by omega)

/-- The buffer of `Absorb_E` is, byte by byte, the one the cases of R101 give. -/
theorem byteAt_absorb_buf (e : BlockEngine σ l) (data : List Byte) {i : Nat} (hi : i < 64) :
    byteAt (absorb alg e data).buf i = updatedByte e.buf (bufIndex e) data i := by
  have hidx := bufIndex_lt e
  by_cases hlt : bufIndex e + data.length < 64
  · rw [absorb_buf_of_lt alg e hlt, updatedByte, if_pos hlt]
    split
    · exact byteAt_memWrite_getD _ hi (by omega) (by omega)
    · exact byteAt_memWrite_outside _ _ _ hi (by omega)
  · have htail : (blockTail (data.drop ((64 - bufIndex e) % 64))).length =
        (bufIndex e + data.length) % 64 := by
      rw [blockTail_length, List.length_drop]
      omega
    rw [absorb_buf_of_ge alg e (by omega), updatedByte, if_neg hlt]
    dsimp only
    by_cases hin : i < (bufIndex e + data.length) % 64
    · rw [if_pos hin, byteAt_memWrite_getD _ hi (by omega) (by omega), Nat.sub_zero,
        blockTail_drop_getD data _ (by omega), htail]
    · rw [if_neg hin, byteAt_memWrite_outside _ _ _ hi (by omega), byteAt_fill e hi (by omega)]

end

/-- An UPDATE of a READY engine answers its accepted state and no other (R235). -/
theorem eq_acceptedState_of_update {i : Instr} {s t : State} (h : exec i s = .next t)
    (hop : i.op = .update) (hready : s.phaseOf i.engine = .ready) : t = acceptedState i s := by
  have hadmits : admits i.op (s.phaseOf i.engine) = true := by rw [hop, hready]; rfl
  rw [exec_of_admits hadmits] at h
  cases h
  rfl

/-- Settles O27: an accepted UPDATE leaves the buffer of `Absorb_E`. -/
theorem updateStoresInBuffer : Obligations.UpdateStoresInBuffer := by
  refine ⟨?_, ?_, ?_⟩ <;> intro s t data hready hexec i hi
  · rw [eq_acceptedState_of_update hexec rfl hready]
    exact byteAt_absorb_buf md4Alg s.md4 data hi
  · rw [eq_acceptedState_of_update hexec rfl hready]
    exact byteAt_absorb_buf md5Alg s.md5 data hi
  · rw [eq_acceptedState_of_update hexec rfl hready]
    exact byteAt_absorb_buf sha1Alg s.sha1 data hi

end Sys2Proof.Machine
end

section
/-! SUPPORT. What a command leaves in each engine, engine by engine (10_state.md R20, R32): the
registers as a function of the engine's own registers, the response (R80), the next state made of
these, and what a step does to the registers. Callers cite these and do not split the sixteen
commands again. -/

namespace Sys2Proof.Machine

/-- What an accepted operation leaves in a block engine (R101, R104, R111, R114). -/
def blockAccepted {σ : Type} {l : Nat} (alg : Algorithm σ l) (op : Op) (data : List Byte)
    (e : BlockEngine σ l) : BlockEngine σ l :=
  match op with
  | .reset => resetEngineState alg e
  | .update => absorb alg e data
  | .finish => finishEngine alg e
  | .getHash => e

/-- What a command leaves in a block engine: another engine's command and a rejected one leave it
as it was (R32, R232). -/
def blockAfter {σ : Type} {l : Nat} (alg : Algorithm σ l) (i : Instr) (e : BlockEngine σ l) :
    BlockEngine σ l :=
  if i.engine = alg.engine ∧ admits i.op e.ph = true then blockAccepted alg i.op i.data e else e

/-- What an accepted operation leaves in the CRC32 engine (R185 to R188). -/
def crcAccepted (op : Op) (data : List Byte) (c : CrcEngine) : CrcEngine :=
  match op with
  | .reset => crcReset c
  | .update => crcUpdate c data
  | .finish => crcFinish c
  | .getHash => c

/-- What a command leaves in the CRC32 engine (R32, R232). -/
def crcAfter (i : Instr) (c : CrcEngine) : CrcEngine :=
  if i.engine = .crc32 ∧ admits i.op c.ph = true then crcAccepted i.op i.data c else c

/-- The response to a command (R80, R235). -/
def commandResponse (i : Instr) (s : State) : Response :=
  if admits i.op (s.phaseOf i.engine) = true then
    { status := .ok, digest := if i.op = .getHash then s.digOf i.engine else [] }
  else { status := .errProtocol, digest := [] }

/-- The rejection record after a command (R244). -/
def commandFault (i : Instr) (s : State) : Option Fault :=
  if admits i.op (s.phaseOf i.engine) = true then s.fault
  else some (s.fault.getD (.protocolError i.engine i.op))

/-- The state after a command, field by field. -/
def commandState (i : Instr) (s : State) : State :=
  { md4 := blockAfter md4Alg i s.md4
    md5 := blockAfter md5Alg i s.md5
    sha1 := blockAfter sha1Alg i s.sha1
    crc32 := crcAfter i s.crc32
    input := s.input
    responses := s.responses ++ [commandResponse i s]
    fault := commandFault i s }

/-- Without admission a block engine stays as it was (R232). -/
theorem blockAfter_of_not_admits {σ : Type} {l : Nat} (alg : Algorithm σ l) {i : Instr}
    {e : BlockEngine σ l} (h : i.engine = alg.engine → admits i.op e.ph = false) :
    blockAfter alg i e = e :=
  if_neg fun hi => by simp [h hi.1] at hi

/-- With admission the engine a command is addressed to takes the operation. -/
theorem blockAfter_of_admits {σ : Type} {l : Nat} (alg : Algorithm σ l) {i : Instr}
    {e : BlockEngine σ l} (h : i.engine = alg.engine → admits i.op e.ph = true) :
    blockAfter alg i e =
      if i.engine = alg.engine then blockAccepted alg i.op i.data e else e :=
  if_congr (and_iff_left_of_imp h) rfl rfl

theorem crcAfter_of_not_admits {i : Instr} {c : CrcEngine}
    (h : i.engine = .crc32 → admits i.op c.ph = false) : crcAfter i c = c :=
  if_neg fun hi => by simp [h hi.1] at hi

theorem crcAfter_of_admits {i : Instr} {c : CrcEngine}
    (h : i.engine = .crc32 → admits i.op c.ph = true) :
    crcAfter i c = if i.engine = .crc32 then crcAccepted i.op i.data c else c :=
  if_congr (and_iff_left_of_imp h) rfl rfl

/-- A rejected command's state (R232), field by field. -/
theorem commandState_of_not_admits {i : Instr} {s : State}
    (h : admits i.op (s.phaseOf i.engine) = false) :
    commandState i s = s.protocolError i.engine i.op := by
  have hat (e : Engine) (he : i.engine = e) : admits i.op (s.phaseOf e) = false := he ▸ h
  rw [commandState, blockAfter_of_not_admits md4Alg (hat .md4),
    blockAfter_of_not_admits md5Alg (hat .md5), blockAfter_of_not_admits sha1Alg (hat .sha1),
    crcAfter_of_not_admits (hat .crc32), commandResponse, commandFault, h]
  rfl

/-- An accepted command's state, field by field. -/
theorem commandState_of_admits {i : Instr} {s : State}
    (h : admits i.op (s.phaseOf i.engine) = true) : commandState i s = acceptedState i s := by
  have hat (e : Engine) (he : i.engine = e) : admits i.op (s.phaseOf e) = true := he ▸ h
  rw [commandState, blockAfter_of_admits md4Alg (hat .md4),
    blockAfter_of_admits md5Alg (hat .md5), blockAfter_of_admits sha1Alg (hat .sha1),
    crcAfter_of_admits (hat .crc32), commandResponse, commandFault, h]
  cases i <;> rfl

/-- Every command answers a next state, and it is this one. -/
theorem exec_eq_commandState (i : Instr) (s : State) : exec i s = .next (commandState i s) := by
  cases h : admits i.op (s.phaseOf i.engine)
  · rw [exec_of_not_admits h, commandState_of_not_admits h]
  · rw [exec_of_admits h, commandState_of_admits h]

theorem eq_commandState_of_exec {i : Instr} {s t : State} (h : exec i s = .next t) :
    t = commandState i s := by
  rw [exec_eq_commandState] at h
  cases h
  rfl

/-- What a step does to the registers: nothing, or what one command leaves in each engine. -/
theorem step_registers {s t : State} (h : step s = .next t) :
    registersKept s t ∨
    ∃ i, t.md4 = blockAfter md4Alg i s.md4 ∧ t.md5 = blockAfter md5Alg i s.md5 ∧
      t.sha1 = blockAfter sha1Alg i s.sha1 ∧ t.crc32 = crcAfter i s.crc32 := by
  obtain ⟨i, rest, -, hexec⟩ | ⟨cw, rest, -, rfl⟩ | ⟨-, rfl⟩ := step_cases h
  · exact .inr ⟨i, by rw [eq_commandState_of_exec hexec]; exact ⟨rfl, rfl, rfl, rfl⟩⟩
  · exact .inl ⟨rfl, rfl, rfl, rfl⟩
  · exact .inl ⟨rfl, rfl, rfl, rfl⟩

theorem admits_update_iff {p : Phase} : admits .update p = true ↔ p = .ready := by
  cases p <;> decide

theorem admits_finish_iff {p : Phase} : admits .finish p = true ↔ p = .ready := by
  cases p <;> decide

theorem admits_getHash_iff {p : Phase} : admits .getHash p = true ↔ p = .finished := by
  cases p <;> decide

section

variable {σ : Type} {l : Nat} {alg : Algorithm σ l}

/-- What a command can do to a block engine, and nothing else (R115). -/
theorem blockAfter_cases (alg : Algorithm σ l) (i : Instr) (e : BlockEngine σ l) :
    blockAfter alg i e = e ∨
    blockAfter alg i e = resetEngineState alg e ∨
    (e.ph = .ready ∧ blockAfter alg i e = absorb alg e i.data) ∨
    blockAfter alg i e = finishEngine alg e := by
  unfold blockAfter
  split
  case isFalse => exact .inl rfl
  case isTrue h =>
    obtain ⟨-, hadmits⟩ := h
    cases hop : i.op with
    | reset => exact .inr (.inl rfl)
    | update => exact .inr (.inr (.inl ⟨admits_update_iff.1 (hop ▸ hadmits), rfl⟩))
    | finish => exact .inr (.inr (.inr rfl))
    | getHash => exact .inl rfl

/-- A command of another engine leaves a block engine as it was (R32). -/
theorem blockAfter_of_ne {i : Instr} (h : i.engine ≠ alg.engine) (e : BlockEngine σ l) :
    blockAfter alg i e = e :=
  if_neg fun hi => h hi.1

/-- GETHASH writes no register of a block engine (R114). -/
theorem blockAfter_getHash {i : Instr} (h : i.op = .getHash) (e : BlockEngine σ l) :
    blockAfter alg i e = e := by
  rw [blockAfter, h]
  exact ite_self e

/-- UPDATE writes neither the phase nor the latch of a block engine (R32). -/
theorem blockAfter_update {i : Instr} (h : i.op = .update) (e : BlockEngine σ l) :
    (blockAfter alg i e).ph = e.ph ∧ (blockAfter alg i e).dig = e.dig := by
  rw [blockAfter, h]
  split
  · exact ⟨absorb_ph alg e i.data, absorb_dig alg e i.data⟩
  · exact ⟨rfl, rfl⟩

/-- The phase a command leaves in a block engine (R27, R115). -/
theorem blockAfter_ph (i : Instr) (e : BlockEngine σ l) :
    (blockAfter alg i e).ph =
      if i.engine = alg.engine ∧ admits i.op e.ph = true then nextPhase i.op e.ph else e.ph := by
  unfold blockAfter
  split
  · cases i.op with
    | reset => rfl
    | update => exact absorb_ph alg e i.data
    | finish => rfl
    | getHash => rfl
  · rfl

end

/-- What a command can do to the CRC32 engine, and nothing else (R115). -/
theorem crcAfter_cases (i : Instr) (c : CrcEngine) :
    crcAfter i c = c ∨
    crcAfter i c = crcReset c ∨
    (c.ph = .ready ∧ crcAfter i c = crcUpdate c i.data) ∨
    crcAfter i c = crcFinish c := by
  unfold crcAfter
  split
  case isFalse => exact .inl rfl
  case isTrue h =>
    obtain ⟨-, hadmits⟩ := h
    cases hop : i.op with
    | reset => exact .inr (.inl rfl)
    | update => exact .inr (.inr (.inl ⟨admits_update_iff.1 (hop ▸ hadmits), rfl⟩))
    | finish => exact .inr (.inr (.inr rfl))
    | getHash => exact .inl rfl

/-- A command of another engine leaves the CRC32 engine as it was (R32). -/
theorem crcAfter_of_ne {i : Instr} (h : i.engine ≠ .crc32) (c : CrcEngine) : crcAfter i c = c :=
  if_neg fun hi => h hi.1

/-- GETHASH writes no register of the CRC32 engine (R188). -/
theorem crcAfter_getHash {i : Instr} (h : i.op = .getHash) (c : CrcEngine) :
    crcAfter i c = c := by
  rw [crcAfter, h]
  exact ite_self c

/-- UPDATE writes neither the phase nor the latch of the CRC32 engine (R186). -/
theorem crcAfter_update {i : Instr} (h : i.op = .update) (c : CrcEngine) :
    (crcAfter i c).ph = c.ph ∧ (crcAfter i c).dig = c.dig := by
  rw [crcAfter, h]
  split <;> exact ⟨rfl, rfl⟩

/-- The phase a command leaves in the CRC32 engine (R27, R115). -/
theorem crcAfter_ph (i : Instr) (c : CrcEngine) :
    (crcAfter i c).ph =
      if i.engine = .crc32 ∧ admits i.op c.ph = true then nextPhase i.op c.ph else c.ph := by
  unfold crcAfter
  split
  · cases i.op <;> rfl
  · rfl

/-- The phase a command leaves in any engine (R27, R115). -/
theorem phaseOf_commandState (i : Instr) (s : State) (e : Engine) :
    (commandState i s).phaseOf e =
      if i.engine = e ∧ admits i.op (s.phaseOf e) = true then nextPhase i.op (s.phaseOf e)
      else s.phaseOf e := by
  cases e with
  | md4 => exact blockAfter_ph i s.md4
  | md5 => exact blockAfter_ph i s.md5
  | sha1 => exact blockAfter_ph i s.sha1
  | crc32 => exact crcAfter_ph i s.crc32

end Sys2Proof.Machine
end

section
/-! SUPPORT. The two invariants of the registers (40_block_buffer.md R106, R113): each holds after
hardware reset, and each engine's part of it is kept by every command. -/

namespace Sys2Proof.Machine

section

variable {σ : Type} {l : Nat} (alg : Algorithm σ l)

/-- Every command keeps a FINISHED block engine zeroized (R31, R113): only FINISH enters FINISHED. -/
theorem blockAfter_zeroized {e : BlockEngine σ l} (h : e.ph = .finished → zeroizedBy alg.zero e)
    (i : Instr) (hph : (blockAfter alg i e).ph = .finished) :
    zeroizedBy alg.zero (blockAfter alg i e) := by
  obtain heq | heq | ⟨hready, heq⟩ | heq := blockAfter_cases alg i e <;> rw [heq] at hph ⊢
  · exact h hph
  · cases hph
  · rw [absorb_ph, hready] at hph
    cases hph
  · exact finish_zero alg e

/-- Counting two payloads is counting their concatenation (R102). -/
theorem payloadLen_append (x y : List Byte) :
    payloadLen (x ++ y) = payloadLen x + payloadLen y := by
  rw [payloadLen, List.length_append, BitVec.ofNat_add, payloadLen, payloadLen]

/-- Reset_E establishes the accumulator invariant for the empty message (R106, R111). -/
theorem absorbed_reset (e : BlockEngine σ l) : absorbed alg (resetEngineState alg e) [] :=
  ⟨rfl, rfl, rfl, reset_pending alg e⟩

/-- Absorb_E preserves the accumulator invariant: the payload joins the message (R106). -/
theorem absorbed_absorb {e : BlockEngine σ l} {msg : List Byte} (h : absorbed alg e msg)
    (data : List Byte) : absorbed alg (absorb alg e data) (msg ++ data) := by
  obtain ⟨hph, hlen, hh, hpending⟩ := h
  change pending e = blockTail msg at hpending
  refine ⟨by rw [absorb_ph, hph], by rw [absorb_len, hlen, payloadLen_append], ?_, ?_⟩
  · rw [absorb_h, hpending, hh, ← foldBlocks_append]
  · rw [absorb_pending, hpending, blockTail_append]
    rfl

/-- Every command keeps the accumulator invariant of a block engine (R106). -/
theorem blockAfter_absorbed {e : BlockEngine σ l} (h : e.ph = .ready → ∃ msg, absorbed alg e msg)
    (i : Instr) (hph : (blockAfter alg i e).ph = .ready) :
    ∃ msg, absorbed alg (blockAfter alg i e) msg := by
  obtain heq | heq | ⟨hready, heq⟩ | heq := blockAfter_cases alg i e <;> rw [heq] at hph ⊢
  · exact h hph
  · exact ⟨[], absorbed_reset alg e⟩
  · obtain ⟨msg, hmsg⟩ := h hready
    exact ⟨msg ++ i.data, absorbed_absorb alg hmsg i.data⟩
  · cases hph

end

/-- Folding two payloads is folding their concatenation (R189). -/
theorem crcFold_append (crc : Word) (x y : List Byte) :
    crcFold crc (x ++ y) = crcFold (crcFold crc x) y := List.foldl_append

/-- Every command keeps the CRC32 register the fold of a message (R189). -/
theorem crcAfter_fold {c : CrcEngine} (h : c.ph = .ready → ∃ msg, c.crc = crcFold crcInit msg)
    (i : Instr) (hph : (crcAfter i c).ph = .ready) :
    ∃ msg, (crcAfter i c).crc = crcFold crcInit msg := by
  obtain heq | heq | ⟨hready, heq⟩ | heq := crcAfter_cases i c <;> rw [heq] at hph ⊢
  · exact h hph
  · exact ⟨[], rfl⟩
  · obtain ⟨msg, hmsg⟩ := h hready
    exact ⟨msg ++ i.data, by rw [crcFold_append, ← hmsg]; rfl⟩
  · cases hph

/-- Settles O37: a step keeps the registers or is one command, and every command keeps each block
engine's part of the invariant. -/
theorem finishedEnginesStayZero : Obligations.FinishedEnginesStayZero := by
  intro s t ⟨hmd4, hmd5, hsha1⟩ hstep
  obtain ⟨h4, h5, h1, -⟩ | ⟨i, h4, h5, h1, -⟩ := step_registers hstep <;>
    rw [finishedAreZero, h4, h5, h1]
  · exact ⟨hmd4, hmd5, hsha1⟩
  · exact ⟨blockAfter_zeroized md4Alg hmd4 i, blockAfter_zeroized md5Alg hmd5 i,
      blockAfter_zeroized sha1Alg hsha1 i⟩

/-- Settles O38: a step keeps the registers or is one command, and every command keeps each
engine's part of the invariant. -/
theorem readyEnginesHoldMessages : Obligations.ReadyEnginesHoldMessages := by
  intro s t ⟨hmd4, hmd5, hsha1, hcrc⟩ hstep
  obtain ⟨h4, h5, h1, hc⟩ | ⟨i, h4, h5, h1, hc⟩ := step_registers hstep <;>
    rw [readyHoldMessages, h4, h5, h1, hc]
  · exact ⟨hmd4, hmd5, hsha1, hcrc⟩
  · exact ⟨blockAfter_absorbed md4Alg hmd4 i, blockAfter_absorbed md5Alg hmd5 i,
      blockAfter_absorbed sha1Alg hsha1 i, crcAfter_fold hcrc i⟩

/-- Settles O39: hardware reset leaves every engine UNINIT, so neither invariant asks anything of
its registers. -/
theorem resetMeetsInvariants : Obligations.ResetMeetsInvariants := by
  refine ⟨?_, ⟨nofun, nofun, nofun⟩, ⟨nofun, nofun, nofun, nofun⟩, rfl, rfl⟩
  intro e
  cases e <;> rfl

end Sys2Proof.Machine
end

section
/-! SUPPORT. Agreement on the specified registers (10_state.md R25, R34, R35) is kept by every
operation, every command and every step, and it fixes the response. -/

namespace Sys2Proof.Machine

section

variable {σ : Type} {l : Nat} (alg : Algorithm σ l) {a b : BlockEngine σ l}

/-- Reset_E specifies the state words, the counter and an empty buffer, whatever was there before
(R111). -/
theorem blockAgree_reset (a b : BlockEngine σ l) :
    blockAgree (resetEngineState alg a) (resetEngineState alg b) :=
  ⟨rfl, fun _ => ⟨rfl, rfl, by rw [reset_pending, reset_pending]⟩, nofun⟩

/-- Absorb_E in READY reads only specified registers: no stale byte of the buffer (R25, R109). -/
theorem blockAgree_absorb (h : blockAgree a b) (hready : a.ph = .ready) (data : List Byte) :
    blockAgree (absorb alg a data) (absorb alg b data) := by
  obtain ⟨hph, hregs, -⟩ := h
  obtain ⟨hh, hlen, hpending⟩ := hregs hready
  refine ⟨by rw [absorb_ph, absorb_ph, hph], fun _ => ⟨?_, ?_, ?_⟩, fun hfin => ?_⟩
  · rw [absorb_h, absorb_h, hh, hpending]
  · rw [absorb_len, absorb_len, hlen]
  · rw [absorb_pending, absorb_pending, hpending]
  · rw [absorb_ph, hready] at hfin
    cases hfin

/-- Finish_E in READY reads only specified registers, and leaves the rest zero (R104, R113). -/
theorem blockAgree_finish (h : blockAgree a b) (hready : a.ph = .ready) :
    blockAgree (finishEngine alg a) (finishEngine alg b) := by
  obtain ⟨-, hregs, -⟩ := h
  obtain ⟨hh, hlen, hpending⟩ := hregs hready
  refine ⟨rfl, nofun, fun _ => ⟨rfl, rfl, rfl, ?_⟩⟩
  rw [finish_dig, finish_dig, hh, hlen, hpending]

/-- Every command keeps two block engines in agreement. -/
theorem blockAgree_after (h : blockAgree a b) (i : Instr) :
    blockAgree (blockAfter alg i a) (blockAfter alg i b) := by
  unfold blockAfter
  rw [← h.1]
  split
  case isFalse => exact h
  case isTrue hi =>
    obtain ⟨-, hadmits⟩ := hi
    cases hop : i.op with
    | reset => exact blockAgree_reset alg a b
    | update => exact blockAgree_absorb alg h (admits_update_iff.1 (hop ▸ hadmits)) i.data
    | finish => exact blockAgree_finish alg h (admits_finish_iff.1 (hop ▸ hadmits))
    | getHash => exact h

end

/-- Every command keeps two CRC32 engines in agreement (R185 to R188). -/
theorem crcAgree_after {a b : CrcEngine} (h : crcAgree a b) (i : Instr) :
    crcAgree (crcAfter i a) (crcAfter i b) := by
  obtain ⟨hph, hcrc, -⟩ := id h
  unfold crcAfter
  rw [← hph]
  split
  case isFalse => exact h
  case isTrue hi =>
    obtain ⟨-, hadmits⟩ := hi
    cases hop : i.op with
    | reset => exact ⟨rfl, fun _ => rfl, nofun⟩
    | update =>
      have hready := admits_update_iff.1 (hop ▸ hadmits)
      exact ⟨hph, fun _ => congrArg (crcFold · i.data) (hcrc hready),
        fun hfin => nomatch hready.symm.trans hfin⟩
    | finish =>
      have hready := admits_finish_iff.1 (hop ▸ hadmits)
      exact ⟨rfl, nofun, fun _ => congrArg crcDigest (hcrc hready)⟩
    | getHash => exact h

section

variable {s t : State} (h : specAgree s t)
include h

/-- States in agreement have the same phases. -/
theorem specAgree_phaseOf (e : Engine) : s.phaseOf e = t.phaseOf e := by
  obtain ⟨hmd4, hmd5, hsha1, hcrc, -⟩ := h
  cases e with
  | md4 => exact hmd4.1
  | md5 => exact hmd5.1
  | sha1 => exact hsha1.1
  | crc32 => exact hcrc.1

/-- States in agreement have the same digest in the latch of a FINISHED engine (R26, R31). -/
theorem specAgree_digOf {e : Engine} (hfin : s.phaseOf e = .finished) :
    s.digOf e = t.digOf e := by
  obtain ⟨⟨-, -, hmd4⟩, ⟨-, -, hmd5⟩, ⟨-, -, hsha1⟩, ⟨-, -, hcrc⟩, -⟩ := h
  cases e with
  | md4 =>
    obtain ⟨-, -, -, hdig⟩ := hmd4 hfin
    exact congrArg Vector.toList hdig
  | md5 =>
    obtain ⟨-, -, -, hdig⟩ := hmd5 hfin
    exact congrArg Vector.toList hdig
  | sha1 =>
    obtain ⟨-, -, -, hdig⟩ := hsha1 hfin
    exact congrArg Vector.toList hdig
  | crc32 => exact congrArg Vector.toList (hcrc hfin)

/-- A response reads a latch in FINISHED only, so agreement fixes it (R80, R114). -/
theorem specAgree_commandResponse (i : Instr) : commandResponse i s = commandResponse i t := by
  unfold commandResponse
  rw [← specAgree_phaseOf h]
  split
  case isFalse => rfl
  case isTrue hadmits =>
    split
    case isFalse => rfl
    case isTrue hop => rw [specAgree_digOf h (admits_getHash_iff.1 (hop ▸ hadmits))]

theorem specAgree_commandFault (i : Instr) : commandFault i s = commandFault i t := by
  obtain ⟨-, -, -, -, -, -, hfault⟩ := id h
  rw [commandFault, commandFault, specAgree_phaseOf h, hfault]

/-- Every command keeps states in agreement. -/
theorem specAgree_commandState (i : Instr) : specAgree (commandState i s) (commandState i t) := by
  obtain ⟨hmd4, hmd5, hsha1, hcrc, hinput, hresponses, -⟩ := id h
  refine ⟨blockAgree_after md4Alg hmd4 i, blockAgree_after md5Alg hmd5 i,
    blockAgree_after sha1Alg hsha1 i, crcAgree_after hcrc i, hinput, ?_,
    specAgree_commandFault h i⟩
  exact congrArg₂ (fun sent r => sent ++ [r]) hresponses (specAgree_commandResponse h i)

theorem specAgree_setInput (rest : List Byte) : specAgree (s.setInput rest) (t.setInput rest) := by
  obtain ⟨hmd4, hmd5, hsha1, hcrc, -, hresponses, hfault⟩ := h
  exact ⟨hmd4, hmd5, hsha1, hcrc, rfl, hresponses, hfault⟩

/-- An illegal command word keeps states in agreement (R233). -/
theorem specAgree_illegalCommand (cw : Byte) :
    specAgree (s.illegalCommand cw) (t.illegalCommand cw) := by
  obtain ⟨hmd4, hmd5, hsha1, hcrc, hinput, hresponses, hfault⟩ := h
  refine ⟨hmd4, hmd5, hsha1, hcrc, hinput, ?_, ?_⟩
  · rw [State.illegalCommand_responses, State.illegalCommand_responses, hresponses]
  · rw [State.illegalCommand_fault, State.illegalCommand_fault, hfault]

end

/-- Settles O40: the streams are equal, so both states take the same kind of step, and each kind
keeps the agreement. -/
theorem unspecifiedRegistersAreUnobservable : Obligations.UnspecifiedRegistersAreUnobservable := by
  intro s t s' h hstep
  obtain ⟨-, -, -, -, hinput, -⟩ := id h
  obtain ⟨i, rest, hd, hexec⟩ | ⟨cw, rest, hd, rfl⟩ | ⟨hd, rfl⟩ := step_cases hstep <;>
    rw [hinput] at hd
  · rw [eq_commandState_of_exec hexec]
    exact ⟨_, (step_command hd).trans (exec_eq_commandState i _),
      specAgree_commandState (specAgree_setInput h rest) i⟩
  · exact ⟨_, step_illegal hd, specAgree_illegalCommand (specAgree_setInput h rest) cw⟩
  · exact ⟨t, step_incomplete hd, h⟩

end Sys2Proof.Machine
end

section
/-! SUPPORT. The phase after every command and what a command touches (10_state.md R27, R32,
60_exceptions.md R232, R235). -/

namespace Sys2Proof.Machine

/-- The state machine's arrows: only RESET, and FINISH in READY, enter a phase (R27, R115, R235). -/
theorem phase_after_op (op : Op) (p : Phase) :
    (if admits op p = true then nextPhase op p else p) =
      if op = .reset then .ready else if op = .finish ∧ p = .ready then .finished else p := by
  cases op <;> cases p <;> rfl

/-- Settles O25: the phase of the command's engine follows the state machine, and every other
engine keeps its phase. -/
theorem phaseMachine : Obligations.PhaseMachine := by
  intro i s t hexec e
  rw [eq_commandState_of_exec hexec, phaseOf_commandState]
  by_cases he : e = i.engine
  · subst he
    simpa using phase_after_op i.op (s.phaseOf i.engine)
  · simp [he, Ne.symm he]

/-- A command keeps the registers of every other engine (R32). -/
theorem othersKept_commandState (i : Instr) (s : State) :
    othersKept i.engine s (commandState i s) :=
  ⟨fun h => blockAfter_of_ne h s.md4, fun h => blockAfter_of_ne h s.md5,
    fun h => blockAfter_of_ne h s.sha1, fun h => crcAfter_of_ne h s.crc32⟩

/-- GETHASH writes no register (R114, R188). -/
theorem registersKept_of_getHash {i : Instr} (h : i.op = .getHash) (s : State) :
    registersKept s (commandState i s) :=
  ⟨blockAfter_getHash h s.md4, blockAfter_getHash h s.md5, blockAfter_getHash h s.sha1,
    crcAfter_getHash h s.crc32⟩

/-- UPDATE writes no phase and no latch (R32). -/
theorem phase_dig_of_update {i : Instr} (h : i.op = .update) (s : State) (e : Engine) :
    (commandState i s).phaseOf e = s.phaseOf e ∧ (commandState i s).digOf e = s.digOf e := by
  cases e with
  | md4 => exact (blockAfter_update h s.md4).imp_right (congrArg Vector.toList)
  | md5 => exact (blockAfter_update h s.md5).imp_right (congrArg Vector.toList)
  | sha1 => exact (blockAfter_update h s.sha1).imp_right (congrArg Vector.toList)
  | crc32 => exact (crcAfter_update h s.crc32).imp_right (congrArg Vector.toList)

/-- Settles O26: each engine's registers after a command are a function of its own before it. -/
theorem commandsTouchOnlyTheirEngine : Obligations.CommandsTouchOnlyTheirEngine := by
  intro i s t hexec
  rw [eq_commandState_of_exec hexec]
  refine ⟨othersKept_commandState i s, rfl, fun h => registersKept_of_getHash h s,
    fun h => phase_dig_of_update h s, ?_⟩
  intro s' t' hexec'
  rw [eq_commandState_of_exec hexec']
  exact ⟨fun _ => congrArg (blockAfter md4Alg i), fun _ => congrArg (blockAfter md5Alg i),
    fun _ => congrArg (blockAfter sha1Alg i), fun _ => congrArg (crcAfter i)⟩

end Sys2Proof.Machine
end

section
/-! SUPPORT. The step and the command stream (30_encoding.md R70 to R78): the decoder undoes the
encoder, and the bytes of commands run those commands one step for each. -/

open Sys2Proof.Machine

namespace Sys2Proof

/-- A command is the one its engine, operation and payload name (R71, R75). -/
theorem ofFields_engine_op_data (i : Instr) : Instr.ofFields i.engine i.op i.data = i := by
  cases i <;> rfl

/-- Only an UPDATE's payload is checked (R74). -/
theorem wellFormed_ofFields_update (e : Engine) (data : List Byte) :
    (Instr.ofFields e .update data).wellFormed = payloadFits data := by cases e <;> rfl

/-- The fields of an UPDATE's command word (R71). -/
theorem updateWord_fields (e : Engine) :
    rsvField (updateWord e) = 0 ∧ engineField (updateWord e) = e ∧
      opField (updateWord e) = .update := by cases e <;> decide

/-- A payload that fits is read back with its UPDATE, whatever follows it (R73, R74). -/
theorem decode_encodeU (e : Engine) {data : List Byte} (h : payloadFits data = true)
    (rest : List Byte) :
    decode (encodeU (updateWord e) data ++ rest) =
      .command (Instr.ofFields e .update data) rest := by
  obtain ⟨hrsv, hengine, hop⟩ := updateWord_fields e
  have hlen : data.length = leNat (leBytes 4 data.length) :=
    (leNat_leBytes (k := 4) (payloadFits_iff.1 h)).symm
  have hdecode := decode_formatU rest hrsv hop (leBytes_length 4 _) hlen
  rwa [hengine, ← List.append_assoc] at hdecode

/-- The decoder reads a well-formed command back from its bytes and leaves what follows them
(R78). -/
theorem decode_encode_append {i : Instr} (h : i.wellFormed = true) (rest : List Byte) :
    decode (encode i ++ rest) = .command i rest := by
  rw [← ofFields_engine_op_data i] at h ⊢
  generalize i.op = op at h ⊢
  cases op with
  | update =>
    rw [wellFormed_ofFields_update] at h
    rw [encode_update]
    exact decode_encodeU i.engine h rest
  | reset | finish | getHash => cases i.engine <;> rfl

end Sys2Proof

namespace Sys2Proof.Machine

/-- Settles O6: it is the first case of a step. -/
theorem stepRunsDecodedCommand : Obligations.StepRunsDecodedCommand :=
  fun _ _ _ => step_command

/-- The step of a state whose stream begins with the bytes of a well-formed command (R70, R78). -/
theorem step_encode {i : Instr} {s : State} {rest : List Byte} (h : i.wellFormed = true)
    (hinput : s.input = encode i ++ rest) :
    step s = .next (commandState i (s.setInput rest)) := by
  rw [step_command (hinput ▸ decode_encode_append h rest), exec_eq_commandState]

/-- A command neither reads nor writes the bytes that follow it (R59). -/
theorem commandState_setInput (i : Instr) (s : State) (bs : List Byte) :
    commandState i (s.setInput bs) = (commandState i s).setInput bs := rfl

/-- A command runs, and the rest of the list runs from the state it leaves (R59). -/
theorem runCommands_cons (i : Instr) (is : List Instr) (s : State) :
    runCommands (i :: is) s = runCommands is (commandState i s) := by
  rw [runCommands, exec_eq_commandState]

/-- A step that answers a next state is followed by the remaining steps. -/
theorem run_succ_of_step {M : Host.Core} {s t : M.State} (h : M.step s = .next t) (k : Nat) :
    M.run (k + 1) s = M.run k t := by
  rw [Host.Core.run, h]

/-- Settles O60, by induction on the commands: the first step is the first command's execution at
the bytes of the others, and a command commutes with replacing the bytes that follow it. -/
theorem commandStreamRunsCommands : Obligations.CommandStreamRunsCommands := by
  intro is s rest hwf hinput
  induction is generalizing s with
  | nil => exact congrArg (Host.Outcome.next <| s.setInput ·) hinput
  | cons i is ih =>
    obtain ⟨hi, his⟩ := List.forall_mem_cons.1 hwf
    have hfirst : s.input = encode i ++ (encodeAll is ++ rest) := by
      rw [hinput, encodeAll, List.flatMap_cons, List.append_assoc]; rfl
    rw [List.length_cons, run_succ_of_step (M := core) (step_encode hi hfirst), ih _ his rfl,
      runCommands_cons, commandState_setInput, commandState_setInput]
    rfl

end Sys2Proof.Machine
end

section
/-! SUPPORT. Commands of different engines (20_memory.md R60): each reads and writes its own
engine's registers only, so their order shows in the order of the responses alone. -/

namespace Sys2Proof.Machine

section

variable {i j : Instr} (h : i.engine ≠ j.engine)
include h

/-- In a block engine at most one of two commands of different engines does anything (R32). -/
theorem blockAfter_comm {σ : Type} {l : Nat} (alg : Algorithm σ l) (e : BlockEngine σ l) :
    blockAfter alg i (blockAfter alg j e) = blockAfter alg j (blockAfter alg i e) := by
  by_cases hi : i.engine = alg.engine
  · have hj : j.engine ≠ alg.engine := hi ▸ h.symm
    rw [blockAfter_of_ne hj, blockAfter_of_ne hj]
  · rw [blockAfter_of_ne hi, blockAfter_of_ne hi]

/-- In the CRC32 engine at most one of two commands of different engines does anything (R32). -/
theorem crcAfter_comm (c : CrcEngine) :
    crcAfter i (crcAfter j c) = crcAfter j (crcAfter i c) := by
  by_cases hi : i.engine = .crc32
  · have hj : j.engine ≠ .crc32 := hi ▸ h.symm
    rw [crcAfter_of_ne hj, crcAfter_of_ne hj]
  · rw [crcAfter_of_ne hi, crcAfter_of_ne hi]

/-- The registers after two commands of different engines, in either order (R60). -/
theorem registersKept_swap (s : State) :
    registersKept (commandState j (commandState i s)) (commandState i (commandState j s)) :=
  ⟨blockAfter_comm h md4Alg s.md4, blockAfter_comm h md5Alg s.md5,
    blockAfter_comm h sha1Alg s.sha1, crcAfter_comm h s.crc32⟩

/-- A command leaves the phase of another engine (R32). -/
theorem phaseOf_commandState_of_ne (s : State) :
    (commandState i s).phaseOf j.engine = s.phaseOf j.engine := by
  rw [phaseOf_commandState, if_neg fun hi => h hi.1]

/-- A command leaves the latch of another engine (R32). -/
theorem digOf_commandState_of_ne (s : State) :
    (commandState i s).digOf j.engine = s.digOf j.engine := by
  obtain ⟨hmd4, hmd5, hsha1, hcrc⟩ := othersKept_commandState i s
  cases hj : j.engine <;> rw [hj] at h
  · exact congrArg (·.dig.toList) (hmd4 h)
  · exact congrArg (·.dig.toList) (hmd5 h)
  · exact congrArg (·.dig.toList) (hsha1 h)
  · exact congrArg (·.dig.toList) (hcrc h)

/-- A command's response is the same after a command of another engine (R60). -/
theorem commandResponse_commandState_of_ne (s : State) :
    commandResponse j (commandState i s) = commandResponse j s := by
  rw [commandResponse, phaseOf_commandState_of_ne h, digOf_commandState_of_ne h, commandResponse]

end

/-- A rejection is on record after a command exactly when one was before or this command is
rejected (R244). -/
theorem commandFault_isSome (i : Instr) (s : State) :
    (commandFault i s).isSome = (!admits i.op (s.phaseOf i.engine) || s.fault.isSome) := by
  cases hadmits : admits i.op (s.phaseOf i.engine) <;> simp [commandFault, hadmits]

/-- A rejection is on record after two commands of different engines exactly when one was before or
one of the two is rejected (R244). -/
theorem fault_isSome_commandState_commandState {i j : Instr} (h : i.engine ≠ j.engine)
    (s : State) :
    (commandState j (commandState i s)).fault.isSome =
      (!admits j.op (s.phaseOf j.engine) ||
        (!admits i.op (s.phaseOf i.engine) || s.fault.isSome)) := by
  change (commandFault j (commandState i s)).isSome = _
  rw [commandFault_isSome, phaseOf_commandState_of_ne h, ← commandFault_isSome i]
  rfl

/-- Settles O28: each command's effect on an engine and its response are the same before and after
the other command. -/
theorem enginesCommute : Obligations.EnginesCommute := by
  intro i j s h
  refine ⟨commandState i s, commandState j (commandState i s), commandState j s,
    commandState i (commandState j s), commandResponse i s, commandResponse j s,
    exec_eq_commandState i s, exec_eq_commandState j _, exec_eq_commandState j s,
    exec_eq_commandState i _, registersKept_swap h s, rfl, rfl, ?_, rfl, ?_, ?_⟩
  · rw [← commandResponse_commandState_of_ne h]
    exact List.append_assoc s.responses _ _
  · rw [← commandResponse_commandState_of_ne h.symm]
    exact List.append_assoc s.responses _ _
  · rw [fault_isSome_commandState_commandState h, fault_isSome_commandState_commandState h.symm,
      Bool.or_left_comm]

end Sys2Proof.Machine
end

section
/-! SUPPORT. The length field of the last block as message words (20_memory.md R51, R52). -/

namespace Sys2Proof.Machine

/-- Little-endian message word `i` of a block (R51). -/
theorem wordsLe_getD (b : Block) {i : Nat} (h : i < 16) :
    (wordsLe b).getD i 0 = le32 (byteAt b (4 * i)) (byteAt b (4 * i + 1)) (byteAt b (4 * i + 2))
      (byteAt b (4 * i + 3)) := by
  simp [wordsLe, List.getD_eq_getElem?_getD, h]

/-- Big-endian message word `i` of a block (R51). -/
theorem wordsBe_getD (b : Block) {i : Nat} (h : i < 16) :
    (wordsBe b).getD i 0 = be32 (byteAt b (4 * i)) (byteAt b (4 * i + 1)) (byteAt b (4 * i + 2))
      (byteAt b (4 * i + 3)) := by
  simp [wordsBe, List.getD_eq_getElem?_getD, h]

/-- Four consecutive byte fields make the 32-bit field they lie in (R12). -/
theorem le32_extractLsb' (v : DWord) (start : Nat) :
    le32 (v.extractLsb' start 8) (v.extractLsb' (start + 8) 8) (v.extractLsb' (start + 16) 8)
      (v.extractLsb' (start + 24) 8) = v.extractLsb' start 32 := by
  have h3 : start + 24 = start + 16 + 8 := rfl
  have h2 : start + 16 = start + 8 + 8 := rfl
  unfold le32
  rw [BitVec.extractLsb'_append_extractLsb'_eq_extractLsb' h3,
    BitVec.extractLsb'_append_extractLsb'_eq_extractLsb' h2,
    BitVec.extractLsb'_append_extractLsb'_eq_extractLsb' rfl]

section

variable {before : List Byte} (h : before.length = 56) (field : List Byte)
include h

/-- The bytes of a block from offset 56 on are those of the field written there (R52). -/
theorem byteAt_lengthField {p : Nat} (hlow : 56 ≤ p) (hhigh : p < 64) :
    byteAt (takeBytes 64 (before ++ field)) p = field.getD (p - 56) 0 := by
  rw [byteAt_takeBytes _ hhigh, List.getD_append_right _ _ _ _ (by omega), h]

variable {i : Nat} (hlow : 14 ≤ i) (hhigh : i < 16)
include hlow hhigh

/-- From word 14 on, a little-endian message word is made of bytes of the field (R51, R52). -/
theorem wordsLe_lengthField :
    (wordsLe (takeBytes 64 (before ++ field))).getD i 0 =
      le32 (field.getD (4 * i - 56) 0) (field.getD (4 * i + 1 - 56) 0)
        (field.getD (4 * i + 2 - 56) 0) (field.getD (4 * i + 3 - 56) 0) := by
  rw [wordsLe_getD _ hhigh]
  simp (disch := omega) only [byteAt_lengthField h field]

/-- From word 14 on, a big-endian message word is made of bytes of the field (R51, R52). -/
theorem wordsBe_lengthField :
    (wordsBe (takeBytes 64 (before ++ field))).getD i 0 =
      be32 (field.getD (4 * i - 56) 0) (field.getD (4 * i + 1 - 56) 0)
        (field.getD (4 * i + 2 - 56) 0) (field.getD (4 * i + 3 - 56) 0) := by
  rw [wordsBe_getD _ hhigh]
  simp (disch := omega) only [byteAt_lengthField h field]

end

/-- Settles O54: words 14 and 15 are the first and the last four bytes of the field, and these are
the two halves of the length in the field's byte order. -/
theorem lengthFieldWords : Obligations.LengthFieldWords := by
  intro before v h
  refine ⟨?_, ?_, ?_, ?_⟩
  · exact (wordsLe_lengthField h _ (by decide) (by decide)).trans (le32_extractLsb' v 0)
  · exact (wordsLe_lengthField h _ (by decide) (by decide)).trans (le32_extractLsb' v 32)
  · exact (wordsBe_lengthField h _ (by decide) (by decide)).trans (le32_extractLsb' v 32)
  · exact (wordsBe_lengthField h _ (by decide) (by decide)).trans (le32_extractLsb' v 0)

end Sys2Proof.Machine
end

section
/-! SUPPORT. What a byte string begins with (30_encoding.md R70 to R78), in terms of the encoder:
the bytes of one well-formed command, an illegal word, or a command's bytes cut short. -/

open Sys2Proof.Machine

namespace Sys2Proof

theorem encodeU_length (cw : Byte) (data : List Byte) :
    (encodeU cw data).length = 5 + data.length := by
  simp only [encodeU, lenBytes_eq, List.length_cons, List.length_append, leBytes_length]
  omega

/-- The bytes of a command: 1 in format N, 5 and the payload in format U (R70, R72, R73). -/
theorem encode_length (i : Instr) :
    (encode i).length = if i.op = .update then 5 + i.data.length else 1 := by
  rw [← ofFields_engine_op_data i, ofFields_op]
  generalize i.op = op
  cases op with
  | update => rw [encode_update, encodeU_length, ofFields_update_data, if_pos rfl]
  | reset | finish | getHash => cases i.engine <;> rfl

/-- Format N has no operand to check (R74). -/
theorem wellFormed_ofFields_of_ne_update (e : Engine) {op : Op} (h : op ≠ .update)
    (data : List Byte) : (Instr.ofFields e op data).wellFormed = true := by
  cases op with
  | update => exact absurd rfl h
  | reset | finish | getHash => cases e <;> rfl

/-- A format-U word, a length operand and a payload of that length are the bytes of a well-formed
UPDATE (R73, R74). -/
theorem encode_formatU {cw : Byte} {field data : List Byte} (h : rsvField cw = 0)
    (ho : opField cw = .update) (hf : field.length = 4) (hl : data.length = leNat field) :
    (Instr.ofFields (engineField cw) .update data).wellFormed = true ∧
      encode (Instr.ofFields (engineField cw) .update data) = cw :: (field ++ data) := by
  have hfits : data.length < 256 ^ 4 := hl ▸ hf ▸ leNat_lt field
  have hfield : leBytes Config.lenBytes data.length = field := by
    rw [lenBytes_eq, hl, ← hf, leBytes_leNat]
  rw [wellFormed_ofFields_update, encode_update, encodeU, ← eq_updateWord cw h ho, hfield]
  exact ⟨payloadFits_iff.2 hfits, rfl⟩

/-- A format-U word and whatever has arrived of its length operand can be completed (R78). -/
theorem formatU_header_completes {cw : Byte} {rest : List Byte} (h : rsvField cw = 0)
    (ho : opField cw = .update) (hl : rest.length < 4) :
    ∃ more i, more ≠ [] ∧ i.wellFormed = true ∧ cw :: rest ++ more = encode i := by
  obtain ⟨zeros, hzeros⟩ : ∃ zeros : List Byte, zeros.length = 4 - rest.length :=
    ⟨List.replicate _ 0, List.length_replicate⟩
  obtain ⟨data, hdata⟩ : ∃ data : List Byte, data.length = leNat (rest ++ zeros) :=
    ⟨List.replicate _ 0, List.length_replicate⟩
  have hne : zeros ≠ [] := List.ne_nil_of_length_pos (by omega)
  have hfield : (rest ++ zeros).length = 4 := by rw [List.length_append]; omega
  obtain ⟨hwf, henc⟩ := encode_formatU h ho hfield hdata
  exact ⟨zeros ++ data, _, List.append_ne_nil_of_left_ne_nil hne data, hwf, by
    rw [henc, List.cons_append, List.append_assoc]⟩

/-- A format-U word, its length operand and too few payload bytes can be completed (R78). -/
theorem formatU_payload_completes {cw : Byte} {field body : List Byte} (h : rsvField cw = 0)
    (ho : opField cw = .update) (hf : field.length = 4) (hl : body.length < leNat field) :
    ∃ more i, more ≠ [] ∧ i.wellFormed = true ∧ cw :: (field ++ body) ++ more = encode i := by
  obtain ⟨zeros, hzeros⟩ : ∃ zeros : List Byte, zeros.length = leNat field - body.length :=
    ⟨List.replicate _ 0, List.length_replicate⟩
  have hdata : (body ++ zeros).length = leNat field := by rw [List.length_append]; omega
  obtain ⟨hwf, henc⟩ := encode_formatU h ho hf hdata
  exact ⟨zeros, _, List.ne_nil_of_length_pos (by omega), hwf, by
    rw [henc, List.cons_append, List.append_assoc]⟩

/-- What a byte string decodes to, with the bytes that it then is (R78). -/
theorem decode_cases (bs : List Byte) :
    (∃ i rest, decode bs = .command i rest ∧ i.wellFormed = true ∧ bs = encode i ++ rest) ∨
    (∃ cw rest, decode bs = .illegal cw rest ∧ bs = cw :: rest ∧ 16 ≤ cw.toNat) ∨
    (decode bs = .incomplete ∧
      ∃ more i, more ≠ [] ∧ i.wellFormed = true ∧ bs ++ more = encode i) := by
  obtain rfl | ⟨cw, rest, rfl, h⟩ | ⟨cw, rest, rfl, h, ho⟩ | ⟨cw, rest, rfl, h, ho, hl⟩ |
    ⟨cw, field, body, rfl, h, ho, hf, hl⟩ | ⟨cw, field, data, rest, rfl, h, ho, hf, hl⟩ :=
    stream_cases bs
  · exact .inr (.inr ⟨rfl, encode .md4Reset, .md4Reset, by decide, rfl, rfl⟩)
  · exact .inr (.inl ⟨cw, rest, decode_illegal rest h, rfl,
      not_lt.1 ((rsvField_eq_zero_iff cw).not.1 h)⟩)
  · exact .inl ⟨_, rest, decode_formatN rest h ho, wellFormed_ofFields_of_ne_update _ ho _,
      by rw [encode_ofFields_formatN cw h ho]; rfl⟩
  · exact .inr (.inr ⟨decode_formatU_header h ho hl, formatU_header_completes h ho hl⟩)
  · exact .inr (.inr ⟨decode_formatU_payload h ho hf hl, formatU_payload_completes h ho hf hl⟩)
  · obtain ⟨hwf, henc⟩ := encode_formatU h ho hf hl
    exact .inl ⟨_, rest, decode_formatU rest h ho hf hl, hwf, by
      rw [henc, List.cons_append, List.append_assoc]⟩

/-- The bytes a decoded command is made of (R78). -/
theorem eq_encode_append_of_decode {bs : List Byte} {i : Instr} {rest : List Byte}
    (h : decode bs = .command i rest) : i.wellFormed = true ∧ bs = encode i ++ rest := by
  obtain ⟨j, after, hd, hj⟩ | ⟨cw, after, hd, -⟩ | ⟨hd, -⟩ := decode_cases bs <;> rw [hd] at h
  · cases h
    exact hj
  · cases h
  · cases h

/-- The bytes an illegal word is made of (R76). -/
theorem eq_cons_of_decode_illegal {bs : List Byte} {cw : Byte} {rest : List Byte}
    (h : decode bs = .illegal cw rest) : bs = cw :: rest ∧ 16 ≤ cw.toNat := by
  obtain ⟨i, after, hd, -⟩ | ⟨cw', after, hd, hcw⟩ | ⟨hd, -⟩ := decode_cases bs <;> rw [hd] at h
  · cases h
  · cases h
    exact hcw
  · cases h

/-- Settles O1: the decoder reads back each format, whatever follows. -/
theorem decodeOfEncode : Obligations.DecodeOfEncode :=
  fun _ rest h => decode_encode_append h rest

/-- Settles O2: it is the command case of what a byte string can decode to. -/
theorem encodeOfDecode : Obligations.EncodeOfDecode :=
  fun _ _ _ => eq_encode_append_of_decode

/-- The number of bytes of a payload pattern (R79). -/
theorem pat_length (n : Nat) : (pat n).length = n := by simp [pat]

/-- The bytes of CRC32.UPDATE PAT(256): its length operand is `00 01 00 00` (R74, R82). -/
theorem encode_crc32Update_pat256 :
    encode (.crc32Update (pat 256)) = [0x0D, 0x00, 0x01, 0x00, 0x00] ++ pat 256 := by
  have hfield : leBytes Config.lenBytes 256 = [0x00, 0x01, 0x00, 0x00] := by decide
  rw [encode, encodeU, pat_length, hfield]
  rfl

/-- Settles O3: the short streams by running the decoder, the long one as the encoding it is. -/
theorem workedEncodings : Obligations.WorkedEncodings := by
  refine ⟨by decide, by decide, by decide, by decide, by decide, by decide, ?_, by decide⟩
  have hwf : (Instr.crc32Update (pat 256)).wellFormed = true :=
    payloadFits_iff.2 (by rw [pat_length]; decide)
  rw [← encode_crc32Update_pat256, ← List.append_nil (encode _)]
  exact decode_encode_append hwf []

end Sys2Proof

namespace Sys2Proof.Machine

/-- Settles O4: the decoder tells an illegal word by its value, and the step then is the rejection
of R233. -/
theorem illegalWordsAreRejected : Obligations.IllegalWordsAreRejected := by
  refine ⟨fun s cw rest hcw hinput => ?_, fun cw rest after hcw hd => ?_⟩
  · have hrsv : rsvField cw ≠ 0 := (rsvField_eq_zero_iff cw).not.2 (not_lt.2 hcw)
    have hd : decode s.input = .illegal cw rest := hinput ▸ decode_illegal rest hrsv
    exact ⟨_, step_illegal hd, ⟨rfl, rfl, rfl, rfl⟩, rfl, rfl,
      by simp [Response.bytes, Status.code], rfl⟩
  · obtain ⟨heq, hge⟩ := eq_cons_of_decode_illegal hd
    cases heq
    omega

/-- Settles O5: it is what a byte string can decode to, with the lengths of the encodings. -/
theorem decodingIsTotal : Obligations.DecodingIsTotal := by
  intro bs
  obtain ⟨i, rest, hd, -, hbs⟩ | hillegal | ⟨hd, more, i, hne, hwf, henc⟩ := decode_cases bs
  · exact .inl ⟨i, rest, encode i, hd, hbs, encode_length i⟩
  · exact .inr (.inl hillegal)
  · refine .inr (.inr ⟨hd, ⟨more, i, hne, ?_⟩, fun s hs => step_incomplete (hs ▸ hd)⟩)
    rw [henc, ← List.append_nil (encode i)]
    exact decode_encode_append hwf []

/-- A state that has sent one more response is another state. -/
theorem ne_of_responses_append {s t : State} {r : Response}
    (h : t.responses = s.responses ++ [r]) : s ≠ t := by
  rintro rfl
  exact List.cons_ne_nil r [] (List.self_eq_append_right.1 h)

/-- Settles O7: every case of a step but waiting sends a response. -/
theorem waitsExactlyWhenIncomplete : Obligations.WaitsExactlyWhenIncomplete := by
  intro s
  refine ⟨fun hstep => ?_, step_incomplete⟩
  obtain ⟨i, rest, -, hexec⟩ | ⟨cw, rest, -, hs⟩ | ⟨hd, -⟩ := step_cases hstep
  · exact absurd (eq_commandState_of_exec hexec) (ne_of_responses_append rfl)
  · exact absurd hs (ne_of_responses_append rfl)
  · exact hd

/-- The bytes of the response to a command (R80, R235). -/
theorem commandResponse_bytes (i : Instr) (s : State) :
    (commandResponse i s).bytes =
      if admits i.op (s.phaseOf i.engine) = false then [0x02]
      else if i.op = .getHash then 0x00 :: s.digOf i.engine else [0x00] := by
  cases hadmits : admits i.op (s.phaseOf i.engine)
  · rw [commandResponse, hadmits]
    rfl
  · rw [commandResponse, if_pos hadmits]
    by_cases hop : i.op = .getHash <;> simp [hop, Response.bytes, Status.code]

/-- Settles O42: a command sends its one response, an illegal word the response of R233, and a
status has one of three codes. -/
theorem oneResponsePerCommand : Obligations.OneResponsePerCommand := by
  refine ⟨fun s t i rest hd hstep => ?_, fun s t cw rest hd hstep => ?_, fun s => ?_, fun r => ?_⟩
  · rw [step_command hd] at hstep
    refine ⟨commandResponse i s, by rw [eq_commandState_of_exec hstep]; rfl, ?_⟩
    have hbytes := commandResponse_bytes i s
    split_ifs at hbytes ⊢ <;> exact hbytes
  · rw [step_illegal hd] at hstep
    cases hstep
    exact ⟨{ status := .errIllegal, digest := [] }, rfl, rfl⟩
  · exact ⟨s.md4.dig.length_toList, s.md5.dig.length_toList, s.sha1.dig.length_toList,
      s.crc32.dig.length_toList⟩
  · obtain ⟨status, digest⟩ := r
    cases status with
    | ok => exact .inl rfl
    | errIllegal => exact .inr (.inl rfl)
    | errProtocol => exact .inr (.inr rfl)

end Sys2Proof.Machine
end

section
/-! SUPPORT. Hardware reset as an event (70_reset_and_hazards.md R260, R261): the phases it leaves,
and the bytes of the command it strikes. -/

namespace Sys2Proof.Machine

theorem phaseOf_hardwareReset (s : State) (e : Engine) : s.hardwareReset.phaseOf e = .uninit := by
  cases e <;> rfl

/-- UNINIT admits RESET only (R235). -/
theorem not_admits_uninit {op : Op} (h : op ≠ .reset) : admits op .uninit = false := by
  cases op with
  | reset => exact absurd rfl h
  | update | finish | getHash => rfl

/-- A rejection for the phase changes nothing but the response and the record (R232). -/
theorem protocolRejected_protocolError (i : Instr) (s : State) :
    protocolRejected i s (s.protocolError i.engine i.op) :=
  ⟨⟨rfl, rfl, rfl, rfl⟩, rfl, rfl, rfl⟩

/-- Settles O45: no engine in UNINIT admits anything but RESET, and the struck command's bytes are
those the decoder takes. -/
theorem hardwareResetCreatesNothing : Obligations.HardwareResetCreatesNothing := by
  intro s
  refine ⟨phaseOf_hardwareReset s, fun i hop => ?_, rfl, rfl, rfl, fun i rest hd => ?_,
    fun cw rest hd => ⟨(eq_cons_of_decode_illegal hd).1, ?_⟩, fun hd => ?_⟩
  · have hnot : admits i.op (s.hardwareReset.phaseOf i.engine) = false := by
      rw [phaseOf_hardwareReset, not_admits_uninit hop]
    exact ⟨_, exec_of_not_admits hnot, protocolRejected_protocolError i _⟩
  · rw [State.hardwareResetDuring, hd]
    rfl
  · rw [State.hardwareResetDuring, hd]
    rfl
  · rw [State.hardwareResetDuring, hd]

end Sys2Proof.Machine
end

section
/-! SUPPORT. The message an engine holds (40_block_buffer.md R106, 45_host_sequences.md R201), for
any of the four engines: RESET starts it, UPDATE extends it, FINISH latches its digest, GETHASH
answers the latch. -/

namespace Sys2Proof.Machine

/-- Engine `e` is READY and has absorbed `msg` since its RESET (R106, R189). -/
def holdsMessage (e : Engine) (s : State) (msg : List Byte) : Prop :=
  match e with
  | .md4 => absorbed md4Alg s.md4 msg
  | .md5 => absorbed md5Alg s.md5 msg
  | .sha1 => absorbed sha1Alg s.sha1 msg
  | .crc32 => s.crc32.ph = .ready ∧ s.crc32.crc = crcFold crcInit msg

/-- Engine `e` is FINISHED and its latch holds the digest of `msg` (R104, R187). -/
def latchesDigest (e : Engine) (s : State) (msg : List Byte) : Prop :=
  s.phaseOf e = .finished ∧ s.digOf e = digestBytes e msg

theorem admits_reset (p : Phase) : admits .reset p = true := by cases p <;> rfl

/-- An engine that holds a message is READY. -/
theorem phaseOf_of_holdsMessage {e : Engine} {s : State} {msg : List Byte}
    (h : holdsMessage e s msg) : s.phaseOf e = .ready := by
  cases e <;> exact h.1

/-- FINISH of an engine that has absorbed a message latches the message's digest (R104, R112). -/
theorem finish_dig_of_absorbed {σ : Type} {l : Nat} (alg : Algorithm σ l) {e : BlockEngine σ l}
    {msg : List Byte} (h : absorbed alg e msg) : (finishEngine alg e).dig = digestOf alg msg := by
  obtain ⟨-, hlen, hh, hpending⟩ := h
  change pending e = blockTail msg at hpending
  rw [finish_dig, hh, hpending, hlen, ← foldBlocks_append]
  rfl

/-- An admitted command's frame and response (R32, R80). -/
theorem acceptedFrame_commandState {i : Instr} {s : State}
    (h : admits i.op (s.phaseOf i.engine) = true) :
    acceptedFrame i.engine (if i.op = .getHash then s.digOf i.engine else []) s
      (commandState i s) :=
  ⟨othersKept_commandState i s, rfl, if_pos h, congrArg (s.responses ++ [·]) (if_pos h)⟩

/-- An accepted command of an engine that is not GETHASH answers no digest (R80). -/
theorem acceptedFrame_ofFields {e : Engine} {op : Op} {s : State} (hop : op ≠ .getHash)
    (h : admits op (s.phaseOf e) = true) (data : List Byte) :
    acceptedFrame e [] s (commandState (Instr.ofFields e op data) s) := by
  have hframe := acceptedFrame_commandState (i := Instr.ofFields e op data) (s := s)
    (by rwa [ofFields_engine, ofFields_op])
  rwa [ofFields_engine, ofFields_op, if_neg hop] at hframe

/-- RESET is accepted in every phase and starts the empty message (R111, R185). -/
theorem reset_holdsMessage (e : Engine) (s : State) :
    acceptedFrame e [] s (commandState (Instr.ofFields e .reset []) s) ∧
      holdsMessage e (commandState (Instr.ofFields e .reset []) s) [] := by
  refine ⟨acceptedFrame_ofFields (by decide) (admits_reset _) [], ?_⟩
  rw [commandState_of_admits (by rw [ofFields_op]; exact admits_reset _)]
  cases e with
  | md4 => exact absorbed_reset md4Alg s.md4
  | md5 => exact absorbed_reset md5Alg s.md5
  | sha1 => exact absorbed_reset sha1Alg s.sha1
  | crc32 => exact ⟨rfl, rfl⟩

/-- UPDATE extends the message an engine holds (R106, R189). -/
theorem update_holdsMessage {e : Engine} {s : State} {msg : List Byte}
    (h : holdsMessage e s msg) (data : List Byte) :
    acceptedFrame e [] s (commandState (Instr.ofFields e .update data) s) ∧
      holdsMessage e (commandState (Instr.ofFields e .update data) s) (msg ++ data) := by
  have hadmits := admits_update_iff.2 (phaseOf_of_holdsMessage h)
  refine ⟨acceptedFrame_ofFields (by decide) hadmits data, ?_⟩
  rw [commandState_of_admits (by rwa [ofFields_engine, ofFields_op])]
  cases e with
  | md4 => exact absorbed_absorb md4Alg h data
  | md5 => exact absorbed_absorb md5Alg h data
  | sha1 => exact absorbed_absorb sha1Alg h data
  | crc32 =>
    obtain ⟨hph, hcrc⟩ := h
    exact ⟨hph, by rw [crcFold_append, ← hcrc]; rfl⟩

/-- FINISH latches the digest of the message an engine holds (R104, R187). -/
theorem finish_latchesDigest {e : Engine} {s : State} {msg : List Byte}
    (h : holdsMessage e s msg) :
    acceptedFrame e [] s (commandState (Instr.ofFields e .finish []) s) ∧
      latchesDigest e (commandState (Instr.ofFields e .finish []) s) msg := by
  have hadmits := admits_finish_iff.2 (phaseOf_of_holdsMessage h)
  refine ⟨acceptedFrame_ofFields (by decide) hadmits [], ?_⟩
  rw [commandState_of_admits (by rwa [ofFields_engine, ofFields_op])]
  cases e with
  | md4 => exact ⟨rfl, congrArg Vector.toList (finish_dig_of_absorbed md4Alg h)⟩
  | md5 => exact ⟨rfl, congrArg Vector.toList (finish_dig_of_absorbed md5Alg h)⟩
  | sha1 => exact ⟨rfl, congrArg Vector.toList (finish_dig_of_absorbed sha1Alg h)⟩
  | crc32 =>
    obtain ⟨-, hcrc⟩ := h
    exact ⟨rfl, by rw [digestBytes, crcDigestOf, ← hcrc]; rfl⟩

/-- GETHASH answers the latched digest (R114, R188). -/
theorem getHash_of_latchesDigest {e : Engine} {s : State} {msg : List Byte}
    (h : latchesDigest e s msg) :
    acceptedFrame e (digestBytes e msg) s (commandState (Instr.ofFields e .getHash []) s) := by
  obtain ⟨hph, hdig⟩ := h
  have hframe := acceptedFrame_commandState (i := Instr.ofFields e .getHash []) (s := s)
    (by rw [ofFields_engine, ofFields_op]; exact admits_getHash_iff.2 hph)
  rwa [ofFields_engine, ofFields_op, if_pos rfl, hdig] at hframe

/-- Two commands in a row that leave the other engines alone leave them alone together (R32). -/
theorem othersKept_trans {e : Engine} {s t u : State} (hst : othersKept e s t)
    (htu : othersKept e t u) : othersKept e s u := by
  obtain ⟨h4, h5, h1, hc⟩ := hst
  obtain ⟨k4, k5, k1, kc⟩ := htu
  exact ⟨fun h => (k4 h).trans (h4 h), fun h => (k5 h).trans (h5 h),
    fun h => (k1 h).trans (h1 h), fun h => (kc h).trans (hc h)⟩

/-- The commands of a HASH whose data one UPDATE can carry (R201). -/
theorem hashCommands_of_fits (e : Engine) {data : List Byte} (h : payloadFits data = true) :
    hashCommands e data = [Instr.ofFields e .reset [], Instr.ofFields e .update data,
      Instr.ofFields e .finish [], Instr.ofFields e .getHash []] := by
  rw [hashCommands, payloadPieces_of_fits h]
  rfl

/-- The commands of a HASH are well formed (R74, R201). -/
theorem hashCommands_wellFormed {e : Engine} {data : List Byte} {i : Instr}
    (h : i ∈ hashCommands e data) : i.wellFormed = true := by
  have hformatN {op : Op} (hop : op ≠ .update) : (Instr.ofFields e op []).wellFormed = true :=
    wellFormed_ofFields_of_ne_update e hop []
  rw [hashCommands, piecewiseCommands, List.mem_cons, List.mem_append, List.mem_pair] at h
  obtain rfl | hupdate | rfl | rfl := h
  · exact hformatN (by decide)
  · exact updateCommands_wellFormed hupdate
  · exact hformatN (by decide)
  · exact hformatN (by decide)

/-- Settles O36: the four steps are the four commands of the HASH, and each is accepted in the phase
the one before it leaves. -/
theorem byteStreamHash : Obligations.ByteStreamHash := by
  intro e s data rest hlen hinput
  have hcommands := hashCommands_of_fits e (payloadFits_iff.2 hlen)
  have hrun := commandStreamRunsCommands _ s rest (fun _ => hashCommands_wellFormed) hinput
  rw [hcommands] at hrun
  simp only [runCommands_cons] at hrun
  obtain ⟨hreset, hempty⟩ := reset_holdsMessage e (s.setInput rest)
  obtain ⟨hupdate, hdata⟩ := update_holdsMessage hempty data
  obtain ⟨hfinish, hlatch⟩ := finish_latchesDigest hdata
  obtain ⟨others1, input1, -, responses1⟩ := hreset
  obtain ⟨others2, input2, -, responses2⟩ := hupdate
  obtain ⟨others3, input3, -, responses3⟩ := hfinish
  obtain ⟨others4, input4, -, responses4⟩ := getHash_of_latchesDigest hlatch
  refine ⟨_, hrun, othersKept_trans others1 (othersKept_trans others2
    (othersKept_trans others3 others4)), ?_, ?_⟩
  · rw [input4, input3, input2, input1]
    rfl
  · rw [responses4, responses3, responses2, responses1]
    simp

end Sys2Proof.Machine
end

section
/-! SUPPORT. The accumulator's registers as functions of what it has absorbed (40_block_buffer.md
R101 to R112): an empty payload, two payloads in a row, the message since Reset_E, the padding and
its blocks, and the statements about them. -/

namespace Sys2Proof.Machine

section

variable {σ : Type} {l : Nat} (alg : Algorithm σ l)

/-- Absorb_E of no bytes writes no register (R108). -/
theorem absorb_nil (e : BlockEngine σ l) : absorb alg e [] = e := by
  have hlt := bufIndex_lt e
  have hlen : (absorb alg e []).len = e.len := (absorb_len alg e []).trans (BitVec.add_zero _)
  have hh : (absorb alg e []).h = e.h := by
    rw [absorb_h, List.append_nil, foldBlocks_short alg _ (by rwa [pending_length])]
  have hbuf : (absorb alg e []).buf = e.buf := by
    rw [absorb_buf_of_lt alg e (data := []) hlt, memWrite_nil]
  change BlockEngine.mk (absorb alg e []).ph (absorb alg e []).h (absorb alg e []).len
    (absorb alg e []).buf (absorb alg e []).dig (absorb alg e []).free = e
  rw [absorb_ph, hh, hlen, hbuf, absorb_dig, absorb_free]

/-- Two payloads compress the blocks their concatenation does (R107). -/
theorem absorb_absorb_h (e : BlockEngine σ l) (x y : List Byte) :
    (absorb alg (absorb alg e x) y).h = (absorb alg e (x ++ y)).h := by
  rw [absorb_h, absorb_h, absorb_pending, ← foldBlocks_append, absorb_h, List.append_assoc]

/-- Two payloads leave waiting the tail their concatenation does (R107). -/
theorem absorb_absorb_pending (e : BlockEngine σ l) (x y : List Byte) :
    pending (absorb alg (absorb alg e x) y) = pending (absorb alg e (x ++ y)) := by
  rw [absorb_pending, absorb_pending, blockTail_append, absorb_pending, List.append_assoc]

/-- Two payloads are counted as their concatenation is (R107). -/
theorem absorb_absorb_len (e : BlockEngine σ l) (x y : List Byte) :
    (absorb alg (absorb alg e x) y).len = (absorb alg e (x ++ y)).len := by
  rw [absorb_len, absorb_len, absorb_len, payloadLen_append, BitVec.add_assoc]

/-- The counter of a message below 2^64 bytes is its length (R103). -/
theorem payloadLen_toNat {msg : List Byte} (h : msg.length < 2 ^ 64) :
    (payloadLen msg).toNat = msg.length := by
  rw [payloadLen, BitVec.toNat_ofNat, Nat.mod_eq_of_lt h]

/-- `index` after a message is what its whole blocks leave (R106). -/
theorem payloadLen_toNat_mod (msg : List Byte) :
    (payloadLen msg).toNat % 64 = msg.length % 64 := by
  rw [payloadLen, BitVec.toNat_ofNat]
  omega

/-- The padding of a message, in terms of its length (R112). -/
theorem padding_payloadLen (msg : List Byte) :
    padding alg (payloadLen msg) =
      0x80 :: (List.replicate (padZeros (msg.length % 64)) 0 ++
        alg.enc64 (BitVec.ofNat 64 (8 * msg.length))) := by
  have hbits : payloadLen msg * 8 = BitVec.ofNat 64 (8 * msg.length) := by
    rw [Nat.mul_comm, BitVec.ofNat_mul]
    rfl
  rw [padding, hbits, payloadLen_toNat_mod]

/-- With an 8-byte length field the padding has 1 + k + 8 bytes (R104). -/
theorem padding_length {len : DWord} (h : (alg.enc64 (len * 8)).length = 8) :
    (padding alg len).length = 1 + padZeros (len.toNat % 64) + 8 := by
  simp only [padding, List.length_cons, List.length_append, List.length_replicate, h]
  omega

/-- The padding completes a whole number of blocks (R104, R112). -/
theorem add_padZeros_mod (n : Nat) : (n + (1 + padZeros (n % 64) + 8)) % 64 = 0 := by
  rw [padZeros]
  omega

theorem padZeros_of_le {index : Nat} (h : index ≤ 55) : padZeros index = 55 - index := by
  rw [padZeros]
  omega

theorem padZeros_of_ge {index : Nat} (h : 56 ≤ index) (hlt : index < 64) :
    padZeros index = 63 - index + 56 := by
  rw [padZeros]
  omega

/-- After the padding no byte waits (R105). -/
theorem absorb_padding_pending {e : BlockEngine σ l} (h : (alg.enc64 (e.len * 8)).length = 8) :
    pending (absorb alg e (padding alg e.len)) = [] := by
  apply List.eq_nil_of_length_eq_zero
  rw [pending_length, absorb_index, padding_length alg h, bufIndex, Nat.mod_add_mod]
  exact add_padZeros_mod _

/-- A single whole block is one compression. -/
theorem foldBlocks_one (h : σ) {b : List Byte} (hb : b.length = 64) :
    foldBlocks alg h b = alg.compress h (takeBytes 64 b) := by
  rw [← List.append_nil b, foldBlocks_block alg h [] hb, foldBlocks_short alg _ (by decide),
    List.append_nil]

/-- With at most 55 bytes waiting, Finish_E compresses one block (R105). -/
theorem finish_dig_of_le {e : BlockEngine σ l} (hfield : (alg.enc64 (e.len * 8)).length = 8)
    (h : e.len.toNat % 64 ≤ 55) :
    (finishEngine alg e).dig = alg.ser (alg.compress e.h (takeBytes 64 (pending e ++
      0x80 :: (List.replicate (55 - e.len.toNat % 64) 0 ++ alg.enc64 (e.len * 8))))) := by
  have hblock : (pending e ++ padding alg e.len).length = 64 := by
    rw [List.length_append, pending_length, bufIndex, padding_length alg hfield, padZeros_of_le h]
    omega
  rw [finish_dig, foldBlocks_one alg _ hblock, padding, padZeros_of_le h]

/-- With at least 56 bytes waiting, Finish_E compresses two blocks, and the length field is in the
second (R105). -/
theorem finish_dig_of_ge {e : BlockEngine σ l} (hfield : (alg.enc64 (e.len * 8)).length = 8)
    (h : 56 ≤ e.len.toNat % 64) :
    (finishEngine alg e).dig = alg.ser (alg.compress (alg.compress e.h
      (takeBytes 64 (pending e ++ 0x80 :: List.replicate (63 - e.len.toNat % 64) 0)))
      (takeBytes 64 (List.replicate 56 0 ++ alg.enc64 (e.len * 8)))) := by
  have hlt : e.len.toNat % 64 < 64 := bufIndex_lt e
  have hfirst :
      (pending e ++ 0x80 :: List.replicate (63 - e.len.toNat % 64) 0).length = 64 := by
    simp only [List.length_append, List.length_cons, List.length_replicate, pending_length,
      bufIndex]
    omega
  have hsecond : (List.replicate 56 0 ++ alg.enc64 (e.len * 8)).length = 64 := by
    rw [List.length_append, List.length_replicate, hfield]
  have hsplit : pending e ++ padding alg e.len =
      (pending e ++ 0x80 :: List.replicate (63 - e.len.toNat % 64) 0) ++
        (List.replicate 56 0 ++ alg.enc64 (e.len * 8)) := by
    rw [padding, padZeros_of_ge h hlt, List.replicate_add]
    simp only [List.append_assoc, List.cons_append]
  rw [finish_dig, hsplit, foldBlocks_block alg _ _ hfirst, foldBlocks_one alg _ hsecond]

/-- Either byte order of the length field has 8 bytes (R12, R104). -/
theorem enc64_length (h : alg.enc64 = encLe64 ∨ alg.enc64 = encBe64) (v : DWord) :
    (alg.enc64 v).length = 8 := by
  obtain h | h := h <;> rw [h] <;> rfl

end

/-- UPDATE with no payload, when accepted, only responds (R108, R186). -/
theorem acceptedState_update_nil (e : Engine) (s : State) :
    acceptedState (Instr.ofFields e .update []) s = s.respond .ok [] := by
  cases e with
  | md4 | md5 | sha1 =>
    rw [Instr.ofFields, acceptedState, absorb_nil]
    rfl
  | crc32 => rfl

theorem exec_update_nil {e : Engine} {s : State} (h : s.phaseOf e = .ready) :
    exec (Instr.ofFields e .update []) s = .next (s.respond .ok []) := by
  rw [exec_of_admits (by rw [ofFields_engine, ofFields_op, admits_update_iff, h]),
    acceptedState_update_nil]

/-- Settles O29: Absorb_E of no bytes and the fold over no bytes leave the engine as it was. -/
theorem emptyUpdateIsNoOp : Obligations.EmptyUpdateIsNoOp :=
  fun _ => ⟨exec_update_nil (e := .md4), exec_update_nil (e := .md5), exec_update_nil (e := .sha1),
    exec_update_nil (e := .crc32)⟩

/-- Settles O30, register by register. -/
theorem updatesConcatenate : Obligations.UpdatesConcatenate := by
  refine ⟨fun σ l alg e x y => ⟨?_, absorb_absorb_len alg e x y, absorb_absorb_h alg e x y,
    absorb_absorb_pending alg e x y, ?_⟩, fun c x y => ?_⟩
  · rw [absorb_ph, absorb_ph, absorb_ph]
  · rw [absorb_dig, absorb_dig, absorb_dig]
  · rw [crcUpdate, crcUpdate, crcUpdate, crcFold_append]

/-- Settles O31: the two cases of the invariant, and its reading below 2^64 bytes. -/
theorem accumulatorInvariant : Obligations.AccumulatorInvariant := by
  refine fun σ l alg => ⟨absorbed_reset alg, fun e msg data h => absorbed_absorb alg h data, ?_⟩
  rintro e msg ⟨-, hlen, hh, hpending⟩ hlt
  have hcount : e.len.toNat = msg.length := by rw [hlen, payloadLen_toNat hlt]
  exact ⟨hcount, hh, by rw [← hpending, pending, bufIndex, hcount]⟩

/-- Settles O32: the digest is `Digest_E` of the message, whose padded form is the one stated. -/
theorem finishGivesDigest : Obligations.FinishGivesDigest := by
  intro σ l alg e msg h _ k padded
  have hpadded : padMessage alg msg = padded := congrArg (msg ++ ·) (padding_payloadLen alg msg)
  have hdigest := finish_dig_of_absorbed alg h
  refine ⟨?_, hdigest.symm, fun hfield => ?_⟩
  · rw [hdigest, digestOf, hpadded]
  · have hlength : padded.length = msg.length + (1 + padZeros (msg.length % 64) + 8) := by
      rw [← hpadded, padMessage, List.length_append, padding_length alg (hfield _),
        payloadLen_toNat_mod]
    exact ⟨by rw [hlength, ← Nat.add_assoc, ← Nat.add_assoc]; rfl,
      by rw [hlength, add_padZeros_mod]⟩

/-- Settles O33: the padding of at most 55 waiting bytes completes one block, of more two. -/
theorem paddingBlocks : Obligations.PaddingBlocks := by
  intro σ l alg e henc index field
  have hfield := enc64_length alg henc (e.len * 8)
  have hlt : index < 64 := bufIndex_lt e
  refine ⟨absorb_padding_pending alg hfield, fun h => ⟨?_, finish_dig_of_le alg hfield h⟩,
    fun h => ⟨?_, finish_dig_of_ge alg hfield h⟩⟩
  · rw [padding_length alg hfield, padZeros_of_le h]
    omega
  · rw [padding_length alg hfield, padZeros_of_ge h hlt]
    omega

end Sys2Proof.Machine
end

section
/-! SUPPORT. UPDATE and FINISH of any block engine (40_block_buffer.md R102, R113): the accepted
command's effect on the engine's registers, the rejection, and the six statements. -/

namespace Sys2Proof.Machine

/-- `reg` reads the registers of `alg`'s engine: the phase that admits its commands, and what a
command leaves (R20, R32). -/
def readsEngine {σ : Type} {l : Nat} (alg : Algorithm σ l) (reg : State → BlockEngine σ l) : Prop :=
  (∀ s, s.phaseOf alg.engine = (reg s).ph) ∧
  ∀ i s, reg (commandState i s) = blockAfter alg i (reg s)

theorem readsEngine_md4 : readsEngine md4Alg State.md4 := ⟨fun _ => rfl, fun _ _ => rfl⟩

theorem readsEngine_md5 : readsEngine md5Alg State.md5 := ⟨fun _ => rfl, fun _ _ => rfl⟩

theorem readsEngine_sha1 : readsEngine sha1Alg State.sha1 := ⟨fun _ => rfl, fun _ _ => rfl⟩

/-- Every byte of the zeroized buffer is 0 (R113). -/
theorem byteAt_zeroBytes {n i : Nat} (h : i < n) : byteAt (zeroBytes n) i = 0 := byteAt_tabulate _ h

theorem ofFields_update_data (e : Engine) (data : List Byte) :
    (Instr.ofFields e .update data).data = data := by cases e <;> rfl

section

variable {σ : Type} {l : Nat} {alg : Algorithm σ l} {reg : State → BlockEngine σ l}
  (hreg : readsEngine alg reg) {s : State}
include hreg

/-- An admitted command leaves in its engine what the operation does (R235). -/
theorem reg_commandState_ofFields {op : Op} (h : admits op (reg s).ph = true)
    (data : List Byte) :
    reg (commandState (Instr.ofFields alg.engine op data) s) =
      blockAccepted alg op (Instr.ofFields alg.engine op data).data (reg s) := by
  obtain ⟨-, hafter⟩ := hreg
  rw [hafter, blockAfter_of_admits alg fun _ => by rwa [ofFields_op], if_pos (ofFields_engine ..),
    ofFields_op]

/-- UPDATE in READY (R102): the counter, the whole blocks compressed and the tail left waiting. -/
theorem update_ready (hready : (reg s).ph = .ready) (data : List Byte) :
    ∃ t, exec (Instr.ofFields alg.engine .update data) s = .next t ∧ (reg t).ph = .ready ∧
      (reg t).len = (reg s).len + BitVec.ofNat 64 data.length ∧
      (reg t).h = compressBlocks alg (((reg s).len.toNat % 64 + data.length) / 64) (reg s).h
        (pending (reg s) ++ data) ∧
      pending (reg t) = (pending (reg s) ++ data).drop
        (64 * (((reg s).len.toNat % 64 + data.length) / 64)) ∧
      (reg t).len.toNat % 64 = ((reg s).len.toNat % 64 + data.length) % 64 ∧
      (reg t).dig = (reg s).dig ∧ acceptedFrame alg.engine [] s t := by
  have hadmits := admits_update_iff.2 hready
  have hlength : (pending (reg s) ++ data).length = (reg s).len.toNat % 64 + data.length := by
    rw [List.length_append, pending_length, bufIndex]
  refine ⟨_, exec_eq_commandState _ s, ?_⟩
  rw [reg_commandState_ofFields hreg hadmits, ofFields_update_data, ← hlength]
  exact ⟨(absorb_ph ..).trans hready, absorb_len .., absorb_h .., absorb_pending ..,
    hlength ▸ absorb_index .., absorb_dig ..,
    acceptedFrame_ofFields (by decide) (hreg.1 s ▸ hadmits) data⟩

/-- FINISH in READY (R104, R113): the digest of the padded stream, then all zero. -/
theorem finish_ready (hready : (reg s).ph = .ready) :
    ∃ t, exec (Instr.ofFields alg.engine .finish []) s = .next t ∧ (reg t).ph = .finished ∧
      (reg t).dig = alg.ser (foldBlocks alg (reg s).h (pending (reg s) ++
        0x80 :: (List.replicate ((64 + 55 - (reg s).len.toNat % 64) % 64) 0 ++
          alg.enc64 ((reg s).len * 8)))) ∧
      (reg t).h = alg.zero ∧ (reg t).len = 0 ∧
      (∀ i, i < 64 → byteAt (reg t).buf i = 0) ∧ acceptedFrame alg.engine [] s t := by
  have hadmits := admits_finish_iff.2 hready
  refine ⟨_, exec_eq_commandState _ s, ?_⟩
  rw [reg_commandState_ofFields hreg hadmits]
  exact ⟨rfl, finish_dig alg (reg s), rfl, rfl, fun i => byteAt_zeroBytes,
    acceptedFrame_ofFields (by decide) (hreg.1 s ▸ hadmits) []⟩

/-- An operation its engine's phase does not admit is rejected (R232, R235). -/
theorem ofFields_rejected {op : Op} (h : ¬ admits op (reg s).ph = true) (data : List Byte) :
    ∃ t, exec (Instr.ofFields alg.engine op data) s = .next t ∧
      protocolRejected (Instr.ofFields alg.engine op data) s t := by
  refine ⟨_, exec_of_not_admits ?_, protocolRejected_protocolError _ s⟩
  rw [ofFields_engine, ofFields_op, hreg.1]
  exact Bool.eq_false_of_not_eq_true h

/-- UPDATE is rejected outside READY (R235). -/
theorem update_rejected (h : (reg s).ph ≠ .ready) (data : List Byte) :
    ∃ t, exec (Instr.ofFields alg.engine .update data) s = .next t ∧
      protocolRejected (Instr.ofFields alg.engine .update data) s t :=
  ofFields_rejected hreg (h ∘ admits_update_iff.1) data

/-- FINISH is rejected outside READY (R235). -/
theorem finish_rejected (h : (reg s).ph ≠ .ready) :
    ∃ t, exec (Instr.ofFields alg.engine .finish []) s = .next t ∧
      protocolRejected (Instr.ofFields alg.engine .finish []) s t :=
  ofFields_rejected hreg (h ∘ admits_finish_iff.1) []

end

/-- Settles O11: UPDATE of the MD4 engine. -/
theorem md4UpdateAbsorbs : Obligations.Md4UpdateAbsorbs :=
  ⟨fun _ => rfl, fun _ data => ⟨fun h => update_ready readsEngine_md4 h data,
    fun h => update_rejected readsEngine_md4 h data⟩⟩

/-- Settles O12: UPDATE of the MD5 engine. -/
theorem md5UpdateAbsorbs : Obligations.Md5UpdateAbsorbs :=
  ⟨fun _ => rfl, fun _ data => ⟨fun h => update_ready readsEngine_md5 h data,
    fun h => update_rejected readsEngine_md5 h data⟩⟩

/-- Settles O13: UPDATE of the SHA1 engine. -/
theorem sha1UpdateAbsorbs : Obligations.Sha1UpdateAbsorbs :=
  ⟨fun _ => rfl, fun _ data => ⟨fun h => update_ready readsEngine_sha1 h data,
    fun h => update_rejected readsEngine_sha1 h data⟩⟩

/-- Settles O14: FINISH of the MD4 engine. -/
theorem md4FinishLatchesAndZeroizes : Obligations.Md4FinishLatchesAndZeroizes :=
  ⟨rfl, fun _ => ⟨finish_ready readsEngine_md4, finish_rejected readsEngine_md4⟩⟩

/-- Settles O15: FINISH of the MD5 engine. -/
theorem md5FinishLatchesAndZeroizes : Obligations.Md5FinishLatchesAndZeroizes :=
  ⟨rfl, fun _ => ⟨finish_ready readsEngine_md5, finish_rejected readsEngine_md5⟩⟩

/-- Settles O16: FINISH of the SHA1 engine. -/
theorem sha1FinishLatchesAndZeroizes : Obligations.Sha1FinishLatchesAndZeroizes :=
  ⟨rfl, fun _ => ⟨finish_ready readsEngine_sha1, finish_rejected readsEngine_sha1⟩⟩

end Sys2Proof.Machine
end

section
/-! SUPPORT. Runs of accepted commands of one engine (45_host_sequences.md R201): the frame and the
responses of commands in a row, and a message delivered in pieces. -/

namespace Sys2Proof.Machine

/-- The frame of a run of accepted commands of engine `e` that answer `sent` (R32, R80). -/
def acceptedRun (e : Engine) (sent : List Response) (s t : State) : Prop :=
  othersKept e s t ∧ t.input = s.input ∧ t.fault = s.fault ∧ t.responses = s.responses ++ sent

/-- The frame of one accepted command is that of a run that answers one response. -/
theorem acceptedRun_of_acceptedFrame {e : Engine} {digest : List Byte} {s t : State}
    (h : acceptedFrame e digest s t) :
    acceptedRun e [{ status := .ok, digest := digest }] s t := h

theorem acceptedRun_nil (e : Engine) (s : State) : acceptedRun e [] s s :=
  ⟨⟨fun _ => rfl, fun _ => rfl, fun _ => rfl, fun _ => rfl⟩, rfl, rfl, (List.append_nil _).symm⟩

theorem acceptedRun_append {e : Engine} {sent sent' : List Response} {s t u : State}
    (hst : acceptedRun e sent s t) (htu : acceptedRun e sent' t u) :
    acceptedRun e (sent ++ sent') s u := by
  obtain ⟨others, input, fault, responses⟩ := hst
  obtain ⟨others', input', fault', responses'⟩ := htu
  exact ⟨othersKept_trans others others', input'.trans input, fault'.trans fault,
    by rw [responses', responses, List.append_assoc]⟩

/-- An accepted command, and then a run from the state it leaves. -/
theorem acceptedRun_cons {e : Engine} {digest : List Byte} {sent : List Response} {s t u : State}
    (hst : acceptedFrame e digest s t) (htu : acceptedRun e sent t u) :
    acceptedRun e ({ status := .ok, digest := digest } :: sent) s u :=
  acceptedRun_append (acceptedRun_of_acceptedFrame hst) htu

/-- UPDATEs of an engine that holds a message extend it by their payloads in order (R106, R107,
R189). -/
theorem updates_holdsMessage {e : Engine} {s : State} {msg : List Byte}
    (h : holdsMessage e s msg) (pieces : List (List Byte)) :
    ∃ t, runCommands (pieces.map (Instr.ofFields e .update)) s = .next t ∧
      holdsMessage e t (msg ++ pieces.flatten) ∧
      acceptedRun e (List.replicate pieces.length { status := .ok, digest := [] }) s t := by
  induction pieces generalizing s msg with
  | nil => exact ⟨s, rfl, by rwa [List.flatten_nil, List.append_nil], acceptedRun_nil e s⟩
  | cons piece pieces ih =>
    obtain ⟨hframe, hnext⟩ := update_holdsMessage h piece
    obtain ⟨t, hrun, hmsg, hrest⟩ := ih hnext
    refine ⟨t, ?_, ?_, acceptedRun_cons hframe hrest⟩
    · rw [List.map_cons, runCommands_cons, hrun]
    · rwa [List.flatten_cons, ← List.append_assoc]

/-- A message delivered in pieces is answered with the digest of their concatenation (R201). -/
theorem piecewiseCommands_run (e : Engine) (s : State) (pieces : List (List Byte)) :
    ∃ t, runCommands (piecewiseCommands e pieces) s = .next t ∧
      acceptedRun e (List.replicate (pieces.length + 2) { status := .ok, digest := [] } ++
        [{ status := .ok, digest := digestBytes e pieces.flatten }]) s t := by
  obtain ⟨hreset, hempty⟩ := reset_holdsMessage e s
  obtain ⟨t, hrun, hmsg, hupdates⟩ := updates_holdsMessage hempty pieces
  obtain ⟨hfinish, hlatch⟩ := finish_latchesDigest hmsg
  have hgetHash := acceptedRun_of_acceptedFrame (getHash_of_latchesDigest hlatch)
  have hall := acceptedRun_cons hreset
    (acceptedRun_append hupdates (acceptedRun_cons hfinish hgetHash))
  refine ⟨commandState (Instr.ofFields e .getHash [])
    (commandState (Instr.ofFields e .finish []) t), ?_, ?_⟩
  · rw [piecewiseCommands, runCommands_cons, runCommands_append hrun, runCommands_cons,
      runCommands_cons, runCommands]
  · rw [List.replicate_succ, List.replicate_succ', List.cons_append, List.append_assoc]
    exact hall

/-- Settles O35: the run of a message delivered in pieces, its responses regrouped. -/
theorem digestIgnoresSplitting : Obligations.DigestIgnoresSplitting := by
  intro e s pieces _
  obtain ⟨t, hrun, others, input, fault, responses⟩ := piecewiseCommands_run e s pieces
  exact ⟨t, hrun, others, input, fault, by rw [responses, List.append_assoc]⟩

end Sys2Proof.Machine
end

section
/-! SUPPORT. RESET of any block engine and GETHASH of any engine (40_block_buffer.md R111, R114):
the accepted command's effect, its repetition, the rejection, and the two statements about MD4. -/

namespace Sys2Proof.Machine

/-- Registers that are kept keep the phase and the latch of every engine. -/
theorem phase_dig_of_registersKept {s t : State} (h : registersKept s t) (e : Engine) :
    t.phaseOf e = s.phaseOf e ∧ t.digOf e = s.digOf e := by
  obtain ⟨hmd4, hmd5, hsha1, hcrc32⟩ := h
  cases e with
  | md4 => exact ⟨congrArg (·.ph) hmd4, congrArg (·.dig.toList) hmd4⟩
  | md5 => exact ⟨congrArg (·.ph) hmd5, congrArg (·.dig.toList) hmd5⟩
  | sha1 => exact ⟨congrArg (·.ph) hsha1, congrArg (·.dig.toList) hsha1⟩
  | crc32 => exact ⟨congrArg (·.ph) hcrc32, congrArg (·.dig.toList) hcrc32⟩

theorem registersKept_trans {s t u : State} (hst : registersKept s t) (htu : registersKept t u) :
    registersKept s u := by
  obtain ⟨hmd4, hmd5, hsha1, hcrc32⟩ := hst
  obtain ⟨hmd4', hmd5', hsha1', hcrc32'⟩ := htu
  exact ⟨hmd4'.trans hmd4, hmd5'.trans hmd5, hsha1'.trans hsha1, hcrc32'.trans hcrc32⟩

/-- GETHASH in FINISHED answers the latch and writes no register (R114, R188). -/
theorem getHash_finished {e : Engine} {s : State} (hfin : s.phaseOf e = .finished) :
    ∃ t, exec (Instr.ofFields e .getHash []) s = .next t ∧ registersKept s t ∧
      acceptedFrame e (s.digOf e) s t := by
  have hframe := acceptedFrame_commandState (i := Instr.ofFields e .getHash []) (s := s)
    (by rw [ofFields_engine, ofFields_op]; exact admits_getHash_iff.2 hfin)
  rw [ofFields_engine, ofFields_op, if_pos rfl] at hframe
  exact ⟨_, exec_eq_commandState _ s, registersKept_of_getHash (ofFields_op ..) s, hframe⟩

/-- A second GETHASH answers the same latch again (R114). -/
theorem getHash_getHash {e : Engine} {s t : State} (hfin : s.phaseOf e = .finished)
    (hkept : registersKept s t) :
    ∃ u, exec (Instr.ofFields e .getHash []) t = .next u ∧ registersKept s u ∧
      acceptedFrame e (s.digOf e) t u := by
  obtain ⟨hph, hdig⟩ := phase_dig_of_registersKept hkept e
  obtain ⟨u, hexec, hkept', hframe⟩ := getHash_finished (hph.trans hfin)
  exact ⟨u, hexec, registersKept_trans hkept hkept', hdig ▸ hframe⟩

/-- GETHASH is rejected outside FINISHED (R235). -/
theorem getHash_rejected {e : Engine} {s : State} (h : s.phaseOf e ≠ .finished) :
    ∃ t, exec (Instr.ofFields e .getHash []) s = .next t ∧
      protocolRejected (Instr.ofFields e .getHash []) s t := by
  refine ⟨_, exec_of_not_admits ?_, protocolRejected_protocolError _ s⟩
  rw [ofFields_engine, ofFields_op]
  exact Bool.eq_false_of_not_eq_true (h ∘ admits_getHash_iff.1)

section

variable {σ : Type} {l : Nat} {alg : Algorithm σ l} {reg : State → BlockEngine σ l}
  (hreg : readsEngine alg reg)
include hreg

/-- RESET in any phase (R111): READY, the initialization vector, a zero counter, nothing waiting. -/
theorem reset_creates (s : State) :
    ∃ t, exec (Instr.ofFields alg.engine .reset []) s = .next t ∧ (reg t).ph = .ready ∧
      (reg t).h = alg.iv ∧ (reg t).len = 0 ∧ pending (reg t) = [] ∧
      acceptedFrame alg.engine [] s t := by
  obtain ⟨hph, hh, hlen⟩ := reset_regs alg (reg s)
  refine ⟨_, exec_eq_commandState _ s, ?_⟩
  rw [reg_commandState_ofFields hreg (admits_reset _)]
  exact ⟨hph, hh, hlen, reset_pending alg (reg s),
    acceptedFrame_ofFields (by decide) (admits_reset _) []⟩

/-- After RESET a further RESET leaves the same registers and GETHASH is rejected (R111, R235). -/
theorem reset_createsState (s : State) :
    ∃ t, exec (Instr.ofFields alg.engine .reset []) s = .next t ∧ (reg t).ph = .ready ∧
      (reg t).h = alg.iv ∧ (reg t).len = 0 ∧ pending (reg t) = [] ∧
      acceptedFrame alg.engine [] s t ∧
      (∃ u, exec (Instr.ofFields alg.engine .reset []) t = .next u ∧ (reg u).ph = .ready ∧
        (reg u).h = (reg t).h ∧ (reg u).len = 0) ∧
      (∃ u, exec (Instr.ofFields alg.engine .getHash []) t = .next u ∧
        protocolRejected (Instr.ofFields alg.engine .getHash []) t u) := by
  obtain ⟨t, hexec, hph, hh, hlen, hpending, hframe⟩ := reset_creates hreg s
  obtain ⟨u, hexec', hph', hh', hlen', -⟩ := reset_creates hreg t
  have hphase : t.phaseOf alg.engine = .ready := (hreg.1 t).trans hph
  exact ⟨t, hexec, hph, hh, hlen, hpending, hframe,
    ⟨u, hexec', hph', hh'.trans hh.symm, hlen'⟩, getHash_rejected (by simp [hphase])⟩

end

/-- Settles O8: RESET of the MD4 engine. -/
theorem md4ResetCreatesState : Obligations.Md4ResetCreatesState :=
  ⟨rfl, reset_createsState readsEngine_md4⟩

/-- Settles O20: GETHASH of the MD4 engine, once and again. -/
theorem md4GetHashReturnsLatch : Obligations.Md4GetHashReturnsLatch := by
  refine ⟨rfl, fun s => ⟨fun hfin => ?_, getHash_rejected (e := .md4)⟩⟩
  obtain ⟨t, hexec, hkept, hframe⟩ := getHash_finished (e := .md4) hfin
  exact ⟨t, hexec, hkept, s.md4.dig.length_toList, hframe, getHash_getHash (e := .md4) hfin hkept⟩

end Sys2Proof.Machine
end

section
/-! SUPPORT. The round functions bit by bit (41_md4.md R122, 42_md5.md R142, 43_sha1.md R162), the
tables by rounds (R123, R124, R162), the steps of MD4 (R125) and the digests' bytes (R127, R148,
R167). -/

namespace Sys2Proof.Machine

/-- The choice of `y` or `z` by `x`, bit by bit (R122). -/
theorem getLsbD_md4F (x y z : Word) {i : Nat} (hi : i < 32) :
    (md4F x y z).getLsbD i = if x.getLsbD i then y.getLsbD i else z.getLsbD i := by
  rw [md4F, BitVec.getLsbD_or, BitVec.getLsbD_and, BitVec.getLsbD_and, BitVec.getLsbD_not]
  cases x.getLsbD i <;> simp [hi]

/-- The majority, bit by bit (R122). -/
theorem getLsbD_md4G (x y z : Word) (i : Nat) :
    (md4G x y z).getLsbD i =
      decide (2 ≤ (x.getLsbD i).toNat + (y.getLsbD i).toNat + (z.getLsbD i).toNat) := by
  rw [md4G, BitVec.getLsbD_or, BitVec.getLsbD_or, BitVec.getLsbD_and, BitVec.getLsbD_and,
    BitVec.getLsbD_and]
  generalize x.getLsbD i = p, y.getLsbD i = q, z.getLsbD i = r
  revert p q r
  decide

/-- The parity, bit by bit (R122). -/
theorem getLsbD_md4H (x y z : Word) (i : Nat) :
    (md4H x y z).getLsbD i = (x.getLsbD i ^^ y.getLsbD i ^^ z.getLsbD i) := by
  rw [md4H, BitVec.getLsbD_xor, BitVec.getLsbD_xor]

/-- MD5's G is the choice of `x` or `y` by `z` (R142). -/
theorem getLsbD_md5G (x y z : Word) {i : Nat} (hi : i < 32) :
    (md5G x y z).getLsbD i = if z.getLsbD i then x.getLsbD i else y.getLsbD i := by
  rw [md5G, BitVec.getLsbD_or, BitVec.getLsbD_and, BitVec.getLsbD_and, BitVec.getLsbD_not]
  cases z.getLsbD i <;> simp [hi]

/-- MD5's I, bit by bit (R142). -/
theorem getLsbD_md5I (x y z : Word) {i : Nat} (hi : i < 32) :
    (md5I x y z).getLsbD i = (y.getLsbD i ^^ (x.getLsbD i || !z.getLsbD i)) := by
  rw [md5I, BitVec.getLsbD_xor, BitVec.getLsbD_or, BitVec.getLsbD_not, decide_eq_true hi,
    Bool.true_and]

/-- A table of SHA-1's rounds, by twenties (R162). -/
theorem sha1_byTwenties {α : Type} (table : Nat → α) {i : Nat} (h : i < 80) :
    table (i / 20 + 1) = if i < 20 then table 1 else if i < 40 then table 2
      else if i < 60 then table 3 else table 4 := by
  split_ifs <;> congr 1 <;> omega

/-- Settles O47: choice, majority and parity are written alike in the three engines, and SHA-1's
two tables go by twenties. -/
theorem roundFunctionsBitByBit : Obligations.RoundFunctionsBitByBit :=
  ⟨fun x y z i hi => ⟨getLsbD_md4F x y z hi, getLsbD_md4G x y z i, getLsbD_md4H x y z i,
    getLsbD_md4F x y z hi, getLsbD_md5G x y z hi, getLsbD_md4H x y z i, getLsbD_md5I x y z hi,
    getLsbD_md4F x y z hi, getLsbD_md4H x y z i, getLsbD_md4G x y z i⟩,
    fun _ h => ⟨sha1_byTwenties sha1Fun h, sha1_byTwenties sha1K h⟩⟩

/-- A table of MD4's rounds, by sixteens (R124). -/
theorem md4_bySixteens {α : Type} (table : Nat → α) {j : Nat} (h : j < 48) :
    table (j / 16 + 1) = if j < 16 then table 1 else if j < 32 then table 2 else table 3 := by
  split_ifs <;> congr 1 <;> omega

/-- The message-word orders in closed form (R124): ascending, by columns, bits reversed. -/
theorem md4Ord_getD : ∀ i, i < 16 →
    (md4Ord 1).getD i 0 = i ∧ (md4Ord 2).getD i 0 = 4 * (i % 4) + i / 4 ∧
      (md4Ord 3).getD i 0 = 8 * (i % 2) + 4 * (i / 2 % 2) + 2 * (i / 4 % 2) + i / 8 := by
  decide

/-- A step of the first round (R125): the words in ascending order, and nothing added but zero. -/
theorem md4Step_firstRound (x : List Word) (a b c d : Word) {j : Nat} (hj : j < 16) :
    md4Step x { h0 := a, h1 := b, h2 := c, h3 := d } j =
      { h0 := d, h1 := rotl (a + md4F b c d + x.getD j 0) ((md4S 1).getD (j % 4) 0), h2 := b
        h3 := c } := by
  obtain ⟨hord, -⟩ := md4Ord_getD j hj
  have hk (v : Word) : v + md4K 1 = v := BitVec.add_zero v
  rw [md4Step, Nat.div_eq_of_lt hj, Nat.mod_eq_of_lt hj, hord, hk]
  rfl

/-- Settles O48: each table goes by sixteens, and the first round adds a zero constant. -/
theorem md4StepsUnrolled : Obligations.Md4StepsUnrolled := by
  refine ⟨?_, rfl, rfl, rfl, fun block i => wordsLe_getD block, fun _ _ => rfl, ?_⟩
  · intro x a b c d j hj i f k n ord
    have hf : md4Fun (j / 16 + 1) b c d = f := md4_bySixteens (md4Fun · b c d) hj
    have hk : md4K (j / 16 + 1) = k := md4_bySixteens md4K hj
    have hn : md4S (j / 16 + 1) = n := md4_bySixteens md4S hj
    have hord : (md4Ord (j / 16 + 1)).getD i 0 = ord := by
      obtain ⟨h1, h2, h3⟩ := md4Ord_getD i (Nat.mod_lt j (by decide))
      rw [md4_bySixteens (fun r => (md4Ord r).getD i 0) hj, h1, h2, h3]
    rw [← hf, ← hk, ← hn, ← hord]
    rfl
  · intro x a b c d
    simp only [List.foldl_cons, List.foldl_nil, md4Step_firstRound, Nat.reduceLT]
    rfl

/-- Settles O55: the serialised words have exactly the latch's length. -/
theorem digestSerialisation : Obligations.DigestSerialisation :=
  ⟨fun _ => ⟨takeBytes_toList rfl, takeBytes_toList rfl⟩, fun _ => takeBytes_toList rfl,
    rfl, rfl, rfl, by decide, by decide, by decide⟩

end Sys2Proof.Machine
end

section
/-! SUPPORT. The commands of MD5 (42_md5.md R149, R152), through the rules of any engine, and its
steps (R143 to R147): the tables by sixteens and the message-word orders in closed form. -/

namespace Sys2Proof.Machine

/-- Settles O9: RESET of the MD5 engine. -/
theorem md5ResetCreatesState : Obligations.Md5ResetCreatesState :=
  ⟨rfl, reset_createsState readsEngine_md5⟩

/-- GETHASH of any engine with an `n`-byte latch, by its phase: in FINISHED the latch, once and
again, and elsewhere the rejection (R114, R235). -/
theorem getHash_returnsLatch {e : Engine} {s : State} {n : Nat} (hlen : (s.digOf e).length = n) :
    (s.phaseOf e = .finished →
      ∃ t, exec (Instr.ofFields e .getHash []) s = .next t ∧ registersKept s t ∧
        (s.digOf e).length = n ∧ acceptedFrame e (s.digOf e) s t ∧
        (∃ u, exec (Instr.ofFields e .getHash []) t = .next u ∧ registersKept s u ∧
          acceptedFrame e (s.digOf e) t u)) ∧
    (s.phaseOf e ≠ .finished → ∃ t, exec (Instr.ofFields e .getHash []) s = .next t ∧
      protocolRejected (Instr.ofFields e .getHash []) s t) := by
  refine ⟨fun hfin => ?_, getHash_rejected⟩
  obtain ⟨t, hexec, hkept, hframe⟩ := getHash_finished hfin
  exact ⟨t, hexec, hkept, hlen, hframe, getHash_getHash hfin hkept⟩

/-- Settles O21: GETHASH of the MD5 engine, whose latch has 16 bytes. -/
theorem md5GetHashReturnsLatch : Obligations.Md5GetHashReturnsLatch :=
  ⟨rfl, fun s => getHash_returnsLatch (e := .md5) s.md5.dig.length_toList⟩

/-- A table of MD5's rounds, by sixteens (R144, R146). -/
theorem md5_bySixteens {α : Type} (table : Nat → α) {j : Nat} (h : j < 64) :
    table (j / 16 + 1) = if j < 16 then table 1 else if j < 32 then table 2
      else if j < 48 then table 3 else table 4 := by
  split_ifs <;> congr 1 <;> omega

/-- The message-word orders in closed form (R146): a multiple of the step and an offset. -/
theorem md5KX_getD : ∀ i, i < 16 →
    (md5KX 1).getD i 0 = i ∧ (md5KX 2).getD i 0 = (5 * i + 1) % 16 ∧
      (md5KX 3).getD i 0 = (3 * i + 5) % 16 ∧ (md5KX 4).getD i 0 = 7 * i % 16 := by
  decide

/-- The message word of step `j`: the orders depend on `j` modulo 16 only, as their closed forms do
(R146). -/
theorem md5KX_getD_step {j : Nat} (h : j < 64) :
    (md5KX (j / 16 + 1)).getD (j % 16) 0 =
      if j < 16 then j else if j < 32 then (5 * j + 1) % 16
      else if j < 48 then (3 * j + 5) % 16 else 7 * j % 16 := by
  obtain ⟨h1, h2, h3, h4⟩ := md5KX_getD (j % 16) (Nat.mod_lt j (by decide))
  rw [md5_bySixteens (fun r => (md5KX r).getD (j % 16) 0) h, h1, h2, h3, h4]
  split_ifs <;> omega

/-- Settles O49: each table goes by sixteens, and the two unrolled steps read theirs at 0 and 1. -/
theorem md5StepsUnrolled : Obligations.Md5StepsUnrolled := by
  refine ⟨?_, rfl, fun block i => wordsLe_getD block, fun _ _ => rfl, fun _ _ _ _ _ => rfl⟩
  intro x a b c d j hj f n kx
  have hf : md5Fun (j / 16 + 1) b c d = f := md5_bySixteens (md5Fun · b c d) hj
  have hn : md5SR (j / 16 + 1) = n := md5_bySixteens md5SR hj
  have hkx : (md5KX (j / 16 + 1)).getD (j % 16) 0 = kx := md5KX_getD_step hj
  rw [← hf, ← hn, ← hkx]
  rfl

end Sys2Proof.Machine
end

section
/-! SUPPORT. The commands of SHA-1 (43_sha1.md R168, R171), through the rules of any engine, and its
message schedule (R163, R164) and steps (R165, R166). -/

namespace Sys2Proof.Machine

/-- Settles O10: RESET of the SHA1 engine. -/
theorem sha1ResetCreatesState : Obligations.Sha1ResetCreatesState :=
  ⟨rfl, reset_createsState readsEngine_sha1⟩

/-- Settles O22: GETHASH of the SHA1 engine, whose latch has 20 bytes. -/
theorem sha1GetHashReturnsLatch : Obligations.Sha1GetHashReturnsLatch :=
  ⟨rfl, fun s => getHash_returnsLatch (e := .sha1) s.sha1.dig.length_toList⟩

/-- The word the taps of position `i` give (R164). -/
def sha1TapWord (w : List Word) (i : Nat) : Word :=
  rotl (w.getD (i - 3) 0 ^^^ w.getD (i - 8) 0 ^^^ w.getD (i - 14) 0 ^^^ w.getD (i - 16) 0) 1

/-- The appended word is that of the taps of its own position (R164). -/
theorem sha1Extend_eq (w : List Word) : sha1Extend w = w ++ [sha1TapWord w w.length] := rfl

theorem length_sha1Extend (w : List Word) : (sha1Extend w).length = w.length + 1 := by
  rw [sha1Extend_eq, List.length_append, List.length_singleton]

theorem length_sha1Extends (k : Nat) (w : List Word) :
    (sha1Extends k w).length = w.length + k := by
  induction k generalizing w with
  | zero => rfl
  | succ k ih => rw [sha1Extends, ih, length_sha1Extend, Nat.add_right_comm, Nat.add_assoc]

/-- Extending the schedule keeps the words it has. -/
theorem sha1Extends_getD_of_lt (k : Nat) {w : List Word} {i : Nat} (h : i < w.length) :
    (sha1Extends k w).getD i 0 = w.getD i 0 := by
  induction k generalizing w with
  | zero => rfl
  | succ k ih =>
    rw [sha1Extends, ih (by rw [length_sha1Extend]; omega), sha1Extend_eq,
      List.getD_append _ _ _ _ h]

/-- The taps of position `i` read words before `i` only, which extending keeps. -/
theorem sha1TapWord_sha1Extends (k : Nat) {w : List Word} {i : Nat} (hpos : 0 < i)
    (h : i ≤ w.length) : sha1TapWord (sha1Extends k w) i = sha1TapWord w i := by
  have hkeep {n : Nat} (hn : 0 < n) : (sha1Extends k w).getD (i - n) 0 = w.getD (i - n) 0 :=
    sha1Extends_getD_of_lt k (by omega)
  simp only [sha1TapWord, hkeep, Nat.reduceLT]

/-- Every appended word is, in the finished schedule, that of the taps of its position (R164). -/
theorem sha1Extends_getD_of_ge (k : Nat) {w : List Word} {i : Nat} (hpos : 0 < w.length)
    (hlow : w.length ≤ i) (hhigh : i < w.length + k) :
    (sha1Extends k w).getD i 0 = sha1TapWord (sha1Extends k w) i := by
  induction k generalizing w with
  | zero => omega
  | succ k ih =>
    have hlen := length_sha1Extend w
    obtain rfl | hlt := hlow.eq_or_lt
    · rw [sha1TapWord_sha1Extends _ hpos le_rfl, sha1Extends, sha1Extends_getD_of_lt k (by omega),
        sha1Extend_eq, List.getD_append_right _ _ _ _ le_rfl, Nat.sub_self, List.getD_cons_zero]
    · exact ih (by omega) (by omega) (by omega)

theorem length_wordsBe (block : Block) : (wordsBe block).length = 16 := by
  rw [wordsBe, List.length_map, List.length_range]

/-- Settles O50: the schedule extends the block's 16 words by 64, which keeps the first and appends
by the taps; the two tables of a step go by twenties. -/
theorem sha1ScheduleRecurrence : Obligations.Sha1ScheduleRecurrence := by
  refine ⟨fun block => ?_, ?_, fun _ _ => rfl⟩
  · have hlen := length_wordsBe block
    refine ⟨by rw [sha1Schedule, length_sha1Extends, hlen], fun i hi => ?_,
      fun i hlow hhigh => ?_⟩
    · rw [sha1Schedule, sha1Extends_getD_of_lt 64 (by omega), wordsBe_getD block hi]
    · exact sha1Extends_getD_of_ge 64 (w := wordsBe block) (by omega) (by omega) (by omega)
  · intro w a b c d e i hi f k
    have hf : sha1Fun (i / 20 + 1) b c d = f := sha1_byTwenties (sha1Fun · b c d) hi
    have hk : sha1K (i / 20 + 1) = k := sha1_byTwenties sha1K hi
    rw [← hf, ← hk]
    rfl

end Sys2Proof.Machine
end

section
/-! SUPPORT. CRC32_Step (44_crc32.md R182): its shift is linear over XOR, hence the table form. And
the commands of CRC32 (R185 to R188): the registers and the frame of an accepted one. -/

namespace Sys2Proof.Machine

/-- A shift of an XOR is the XOR of the shifts: the polynomial enters where one of the two low
bits is 1, and cancels where both are (R182). -/
theorem crcShift_xor (x y : Word) : crcShift (x ^^^ y) = crcShift x ^^^ crcShift y := by
  unfold crcShift
  rw [BitVec.getLsbD_xor, BitVec.ushiftRight_xor_distrib]
  cases x.getLsbD 0 <;> cases y.getLsbD 0
  · rfl
  · exact BitVec.xor_assoc ..
  · simp only [Bool.xor_false, if_true, Bool.false_eq_true, if_false]
    ac_rfl
  · simp only [Bool.xor_true, Bool.not_true, if_true, Bool.false_eq_true, if_false]
    rw [show x >>> 1 ^^^ crcPoly ^^^ (y >>> 1 ^^^ crcPoly) =
      x >>> 1 ^^^ y >>> 1 ^^^ (crcPoly ^^^ crcPoly) by ac_rfl, BitVec.xor_self, BitVec.xor_zero]

theorem crcShifts_xor (k : Nat) (x y : Word) :
    crcShifts k (x ^^^ y) = crcShifts k x ^^^ crcShifts k y := by
  induction k generalizing x y with
  | zero => rfl
  | succ k ih => rw [crcShifts, crcShift_xor, ih]; rfl

/-- Where the `k` low bits are 0, the polynomial does not enter `k` shifts (R182). -/
theorem crcShifts_of_low_zero (k : Nat) {x : Word} (h : ∀ i, i < k → x.getLsbD i = false) :
    crcShifts k x = x >>> k := by
  induction k generalizing x with
  | zero => rfl
  | succ k ih =>
    have hfirst : crcShift x = x >>> 1 := if_neg (Bool.eq_false_iff.1 (h 0 k.succ_pos))
    have hrest : ∀ i, i < k → (x >>> 1).getLsbD i = false := fun i hi => by
      rw [BitVec.getLsbD_ushiftRight]
      exact h _ (by omega)
    rw [crcShifts, hfirst, ih hrest, Nat.add_comm k, BitVec.shiftRight_add]

/-- A zero-extended byte has nothing above its 8 bits. -/
theorem setWidth_ushiftRight_eight (b : Byte) : b.setWidth 32 >>> 8 = (0 : Word) := by
  ext i hi
  simp

theorem and_lowByte (x : Word) : x &&& 0xFF = (x.setWidth 8).setWidth 32 := by
  refine BitVec.eq_of_toNat_eq ?_
  rw [BitVec.toNat_setWidth, BitVec.toNat_setWidth, BitVec.toNat_and,
    show x.toNat &&& (0xFF : Word).toNat = x.toNat % 2 ^ 8 from Nat.and_two_pow_sub_one_eq_mod _ 8]
  omega

/-- Eight shifts take the low byte through the table and move the rest down: the rest has 8 zero
bits at its low end (R182). -/
theorem crcShifts_eight (x : Word) : crcShifts 8 x = crcShifts 8 (x &&& 0xFF) ^^^ (x >>> 8) := by
  have hlow : ∀ i, i < 8 → (x ^^^ (x &&& 0xFF)).getLsbD i = false := fun i hi => by
    have hi32 : i < 32 := by omega
    rw [and_lowByte, BitVec.getLsbD_xor, BitVec.getLsbD_setWidth, BitVec.getLsbD_setWidth]
    simp [hi, hi32]
  have hrest : (x ^^^ (x &&& 0xFF)) >>> 8 = x >>> 8 := by
    rw [BitVec.ushiftRight_xor_distrib, and_lowByte, setWidth_ushiftRight_eight]
    exact BitVec.xor_zero
  calc crcShifts 8 x
    _ = crcShifts 8 ((x &&& 0xFF) ^^^ (x ^^^ (x &&& 0xFF))) := by
        rw [BitVec.xor_comm, BitVec.xor_assoc, BitVec.xor_self, BitVec.xor_zero]
    _ = crcShifts 8 (x &&& 0xFF) ^^^ (x >>> 8) := by
        rw [crcShifts_xor, crcShifts_of_low_zero 8 hlow, hrest]

/-- Settles O51: the eight shifts send the low byte through the table and move the rest down, and
the rest is the register's own, since the byte has nothing there. -/
theorem crcTableForm : Obligations.CrcTableForm := by
  refine fun crc byte => ⟨?_, rfl, ?_⟩
  · simp only [crcShift, crcPoly, BitVec.getLsbD, Nat.testBit_zero, decide_eq_true_eq]
  · rw [crcStep, crcShifts_eight, BitVec.ushiftRight_xor_distrib, setWidth_ushiftRight_eight]
    exact congrArg (_ ^^^ ·) BitVec.xor_zero

/-- A command its engine's phase does not admit is rejected (R232, R235). -/
theorem exec_rejected {i : Instr} {s : State} (h : ¬ admits i.op (s.phaseOf i.engine) = true) :
    ∃ t, exec i s = .next t ∧ protocolRejected i s t :=
  ⟨_, exec_of_not_admits (Bool.eq_false_of_not_eq_true h), protocolRejected_protocolError i s⟩

/-- An admitted command of CRC32 that is not GETHASH: its registers and its frame (R185 to R187). -/
theorem crc32_accepted {i : Instr} {s : State} (he : i.engine = .crc32) (hop : i.op ≠ .getHash)
    (h : admits i.op s.crc32.ph = true) :
    ∃ t, exec i s = .next t ∧ t.crc32 = crcAccepted i.op i.data s.crc32 ∧
      acceptedFrame .crc32 [] s t := by
  have hframe := acceptedFrame_commandState (i := i) (s := s) (by rwa [he])
  rw [he, if_neg hop] at hframe
  exact ⟨_, exec_eq_commandState i s, if_pos ⟨he, h⟩, hframe⟩

/-- RESET in any phase (R185). -/
theorem crc32Reset_accepted (s : State) :
    ∃ t, exec .crc32Reset s = .next t ∧ t.crc32.ph = .ready ∧ t.crc32.crc = 0xFFFFFFFF ∧
      acceptedFrame .crc32 [] s t := by
  obtain ⟨t, hexec, hregs, hframe⟩ :=
    crc32_accepted (i := .crc32Reset) (s := s) rfl nofun (admits_reset _)
  exact ⟨t, hexec, by rw [hregs]; rfl, by rw [hregs]; rfl, hframe⟩

/-- Settles O17: RESET is accepted in any phase, so in the one it leaves. -/
theorem crc32ResetSetsRegister : Obligations.Crc32ResetSetsRegister := by
  refine ⟨rfl, fun s => ?_⟩
  obtain ⟨t, hexec, hph, hcrc, hframe⟩ := crc32Reset_accepted s
  obtain ⟨u, hexec', hph', hcrc', -⟩ := crc32Reset_accepted t
  exact ⟨t, hexec, hph, hcrc, hframe, u, hexec', hph', hcrc'⟩

/-- Settles O18: in READY the registers are those of `crcUpdate`. -/
theorem crc32UpdateFoldsBytes : Obligations.Crc32UpdateFoldsBytes := by
  refine ⟨fun _ => rfl, fun s data => ⟨fun hready => ?_, fun h =>
    exec_rejected (h ∘ admits_update_iff.1)⟩⟩
  obtain ⟨t, hexec, hregs, hframe⟩ :=
    crc32_accepted (i := .crc32Update data) rfl nofun (admits_update_iff.2 hready)
  refine ⟨t, hexec, ?_⟩
  rw [hregs]
  exact ⟨hready, rfl, rfl, fun hempty => by rw [hempty]; rfl, hframe⟩

/-- The digest's bytes are the register's, inverted, highest first (R184). -/
theorem crcDigest_toList (crc : Word) : (crcDigest crc).toList = encBe32 (crc ^^^ crcFinalXor) :=
  takeBytes_toList rfl

/-- Settles O19: in READY the latch is that of `crcFinish`. -/
theorem crc32FinishLatchesValue : Obligations.Crc32FinishLatchesValue := by
  refine ⟨rfl, fun s => ⟨fun hready => ?_, fun h => exec_rejected (h ∘ admits_finish_iff.1)⟩⟩
  obtain ⟨t, hexec, hregs, hframe⟩ :=
    crc32_accepted (i := .crc32Finish) rfl nofun (admits_finish_iff.2 hready)
  refine ⟨t, hexec, ?_, ?_, hframe⟩ <;> rw [hregs]
  · rfl
  · exact crcDigest_toList s.crc32.crc

/-- Settles O23: GETHASH of the CRC32 engine, whose latch has 4 bytes. -/
theorem crc32GetHashReturnsLatch : Obligations.Crc32GetHashReturnsLatch :=
  ⟨rfl, fun s => getHash_returnsLatch (e := .crc32) s.crc32.dig.length_toList⟩

end Sys2Proof.Machine
end

section
/-! SUPPORT. A HASH of any message (45_host_sequences.md R201) and the slots of the result record
(R210). -/

namespace Sys2Proof.Machine

/-- Settles O34: a HASH is the message delivered in its payloads. -/
theorem hashSequence : Obligations.HashSequence := by
  intro e s data _
  obtain ⟨t, hrun, others, input, fault, responses⟩ :=
    piecewiseCommands_run e s (payloadPieces data)
  rw [payloadPieces_flatten] at responses
  exact ⟨rfl, payloadPieces_flatten data, fun h => payloadPieces_of_fits (payloadFits_iff.2 h),
    fun _ => hashCommands_wellFormed, crcDigest_toList _, t, hrun, others, input, fault,
    by rw [responses, List.append_assoc]⟩

/-- The first `off` bytes of a record are `written` and the others are those of `old` (R210). -/
def writtenUpTo (old : Bytes 56) (off : Nat) (written : List Byte) (record : Bytes 56) : Prop :=
  written.length = off ∧ record.toList = written ++ old.toList.drop off

/-- Writing the next slot adds the digest, or the slot's old bytes if none was requested (R210). -/
theorem writtenUpTo_writeSlot {old record : Bytes 56} {off n : Nat} {written : List Byte}
    {digest : Option (List Byte)} (h : writtenUpTo old off written record) (hfit : off + n ≤ 56)
    (hdigest : ∀ d, digest = some d → d.length = n) :
    writtenUpTo old (off + n) (written ++ digest.getD ((old.toList.drop off).take n))
      (writeSlot record off digest) := by
  obtain ⟨rfl, hrecord⟩ := h
  have hold : old.toList.length = 56 := old.length_toList
  cases digest with
  | none =>
    refine ⟨by simp [hold]; omega, ?_⟩
    rw [writeSlot, hrecord, Option.getD_none, List.append_assoc, ← List.drop_drop,
      List.take_append_drop]
  | some d =>
    obtain rfl := hdigest d rfl
    refine ⟨by simp, ?_⟩
    rw [writeSlot, memWrite_toList record hfit, hrecord, List.take_left, Option.getD_some,
      ← List.drop_drop, List.drop_left, List.drop_drop]

/-- Settles O58: the slots are written one after another, and together they fill the record. -/
theorem resultRecordLayout : Obligations.ResultRecordLayout := by
  intro old root crc md5 sha1 hroot hcrc hmd5 hsha1
  have hstart : writtenUpTo old 0 [] old := ⟨rfl, rfl⟩
  have hroot' := writtenUpTo_writeSlot (n := 16) (digest := some root) hstart (by decide)
    fun d hd => Option.some.inj hd ▸ hroot
  have hcrc' := writtenUpTo_writeSlot hroot' (by decide) hcrc
  have hmd5' := writtenUpTo_writeSlot hcrc' (by decide) hmd5
  obtain ⟨-, hrecord⟩ := writtenUpTo_writeSlot hmd5' (by decide) hsha1
  have hlast : (old.toList.drop 36).take 20 = old.toList.drop 36 :=
    List.take_of_length_le (by simp)
  have hend : old.toList.drop 56 = [] := List.drop_eq_nil_of_le (by simp)
  rw [hlast, hend, List.append_nil] at hrecord
  exact hrecord

end Sys2Proof.Machine
end

section
/-! SUPPORT. The chunks of a file (45_host_sequences.md R207): their recursion, their number and
their contents, and the root hash of the chunk hash list (R209). -/

namespace Sys2Proof.Machine

theorem piecesOf_nil (c n : Nat) : piecesOf c n [] = [] := by cases n <;> rfl

theorem chunksOf_nil (c : Nat) : chunksOf c [] = [] := rfl

/-- Induction over the chunks of a file: the empty file, and a file whose first chunk is cut off. -/
theorem chunks_induction {c : Nat} (hc : 0 < c) {motive : List Byte → Prop}
    (nil : motive []) (cut : ∀ data, data ≠ [] → motive (data.drop c) → motive data)
    (data : List Byte) : motive data := by
  by_cases h : data = []
  · exact h ▸ nil
  · exact cut data h (chunks_induction hc nil cut (data.drop c))
termination_by data.length
decreasing_by
  have := List.length_pos_iff.2 h
  rw [List.length_drop]
  omega

section

variable {c : Nat} (hc : 0 < c)
include hc

/-- Fuel beyond the length of the sequence changes nothing. -/
theorem piecesOf_eq_of_le {m n : Nat} {data : List Byte} (hm : data.length ≤ m)
    (hn : data.length ≤ n) : piecesOf c m data = piecesOf c n data := by
  induction data using chunks_induction hc generalizing m n with
  | nil => rw [piecesOf_nil, piecesOf_nil]
  | cut data hne ih =>
    have hpos := List.length_pos_iff.2 hne
    obtain ⟨m, rfl⟩ := Nat.exists_eq_add_one.2 (Nat.lt_of_lt_of_le hpos hm)
    obtain ⟨n, rfl⟩ := Nat.exists_eq_add_one.2 (Nat.lt_of_lt_of_le hpos hn)
    rw [piecesOf, piecesOf, ih (m := m) (n := n)] <;> rw [List.length_drop] <;> omega

theorem piecesOf_eq_chunksOf {n : Nat} {data : List Byte} (h : data.length ≤ n) :
    piecesOf c n data = chunksOf c data :=
  piecesOf_eq_of_le hc h (Nat.le_refl _)

/-- A file's first chunk, and the chunks of what follows it (R207). -/
theorem chunksOf_of_ne_nil {data : List Byte} (h : data ≠ []) :
    chunksOf c data = data.take c :: chunksOf c (data.drop c) := by
  obtain ⟨b, rest, rfl⟩ := List.exists_cons_of_ne_nil h
  rw [← piecesOf_eq_chunksOf hc (n := rest.length) (data := (b :: rest).drop c)
    (by rw [List.length_drop, List.length_cons]; omega)]
  rfl

/-- A file of at most one chunk is its chunk (R207). -/
theorem chunksOf_of_le {data : List Byte} (hne : data ≠ []) (hle : data.length ≤ c) :
    chunksOf c data = [data] := by
  rw [chunksOf_of_ne_nil hc hne, List.take_of_length_le hle, List.drop_eq_nil_of_le hle,
    chunksOf_nil]

/-- Chunk `i` is the bytes from `i * c` on, up to `(i + 1) * c` or the file's end (R207). -/
theorem chunksOf_getElem? (data : List Byte) (i : Nat) :
    (chunksOf c data)[i]? =
      if i * c < data.length then some ((data.drop (i * c)).take c) else none := by
  induction data using chunks_induction hc generalizing i with
  | nil => rfl
  | cut data hne ih =>
    rw [chunksOf_of_ne_nil hc hne]
    cases i with
    | zero => simp [List.length_pos_iff.2 hne]
    | succ i =>
      rw [List.getElem?_cons_succ, ih, List.drop_drop, List.length_drop, Nat.succ_mul,
        Nat.add_comm c]
      exact if_congr (by omega) rfl rfl

theorem length_chunksOf_le_iff {data : List Byte} {i : Nat} :
    (chunksOf c data).length ≤ i ↔ data.length ≤ i * c := by
  rw [← List.getElem?_eq_none_iff, chunksOf_getElem? hc, ite_eq_right_iff]
  simp

/-- The number of chunks is the file's size divided by the chunk size, rounded up (R207). -/
theorem length_chunksOf (data : List Byte) :
    (chunksOf c data).length = (data.length + c - 1) / c :=
  eq_of_forall_ge_iff fun i => by
    rw [length_chunksOf_le_iff hc, ← Nat.ceilDiv_eq_add_pred_div, ceilDiv_le_iff_le_mul hc,
      Nat.mul_comm]

end

/-- The chunk hash list of a non-empty file has a last digest (R207, R208). -/
theorem chunkHashes_ne_nil {c : Nat} (hc : 0 < c) {data : List Byte} (hne : data ≠ []) :
    chunkHashes c data ≠ [] := by
  rw [chunkHashes, chunksOf_of_ne_nil hc hne]
  exact List.cons_ne_nil _ _

/-- The root of a file of one chunk is the chunk's digest (R209). -/
theorem ed2kRoot_of_one {c : Nat} {data d : List Byte} (h : chunkHashes c data = [d]) :
    ed2kRoot c data = some d := by
  rw [ed2kRoot, h]

/-- The root of a file of several chunks is the digest of the chunk digests (R209). -/
theorem ed2kRoot_of_many {c : Nat} {data : List Byte} (h : 1 < (chunkHashes c data).length) :
    ed2kRoot c data = some (digestBytes .md4 (chunkHashes c data).flatten) := by
  rw [ed2kRoot]
  split
  · next hnone => rw [hnone] at h; cases h
  · next hone => rw [hone] at h; cases h; contradiction
  · rfl

theorem digestBytes_md4_length (data : List Byte) : (digestBytes .md4 data).length = 16 :=
  (digestOf md4Alg data).length_toList

/-- Settles O56: the chunks of a file of at most one chunk, and of one chunk and a byte. -/
theorem ed2kRootOfOneAndTwoChunks : Obligations.Ed2kRootOfOneAndTwoChunks := by
  have hc : 0 < ed2kChunkSize := by decide
  refine ⟨fun data hpos hle => ?_, fun data hlength => ?_, fun d₁ d₂ => ?_, rfl⟩
  · have hchunks := chunksOf_of_le hc (List.length_pos_iff.1 hpos) hle
    exact ed2kRoot_of_one (by rw [chunkHashes, hchunks, List.map_singleton])
  · have hlast : (data.drop ed2kChunkSize).length = 1 := by rw [List.length_drop]; omega
    have hhashes : chunkHashes ed2kChunkSize data =
        [digestBytes .md4 (data.take ed2kChunkSize),
          digestBytes .md4 (data.drop ed2kChunkSize)] := by
      rw [chunkHashes, chunksOf_of_ne_nil hc (List.length_pos_iff.1 (by omega)),
        chunksOf_of_le hc (List.length_pos_iff.1 (by omega)) (by omega)]
      rfl
    rw [ed2kRoot_of_many (by rw [hhashes]; exact Nat.lt_succ_self 1), hhashes, List.flatten_cons,
      List.flatten_singleton]
  · rw [List.length_append, digestBytes_md4_length, digestBytes_md4_length]

end Sys2Proof.Machine
end

section
/-! SUPPORT. The host's ed2k commands over whole chunks (45_host_sequences.md R207, R208) and those
of the root hash (R209). -/

namespace Sys2Proof.Machine

/-- The response of an accepted command (R80). -/
def okResponse (digest : List Byte) : Response := { status := .ok, digest := digest }

/-- A run that answers something ends with the last of its answers. -/
theorem getLast?_responses_of_acceptedRun {e : Engine} {sent : List Response} {r : Response}
    {s t : State} (h : acceptedRun e sent s t) (hlast : sent.getLast? = some r) :
    t.responses.getLast? = some r := by
  obtain ⟨-, -, -, responses⟩ := h
  rw [responses, List.getLast?_append, hlast]
  rfl

/-- A HASH of any message ends with the message's digest (R201). -/
theorem hashCommands_run (e : Engine) (data : List Byte) (s : State) :
    ∃ t sent, runCommands (hashCommands e data) s = .next t ∧ acceptedRun e sent s t ∧
      sent.getLast? = some (okResponse (digestBytes e data)) := by
  obtain ⟨t, hrun, haccepted⟩ := piecewiseCommands_run e s (payloadPieces data)
  rw [payloadPieces_flatten] at haccepted
  exact ⟨t, _, hrun, haccepted, List.getLast?_concat⟩

/-- HASHes in a row end with the last message's digest (R201, R208). -/
theorem hashes_run (e : Engine) (messages : List (List Byte)) (s : State) :
    ∃ t sent, runCommands (messages.flatMap (hashCommands e)) s = .next t ∧
      acceptedRun e sent s t ∧
      sent.getLast? = (messages.map (digestBytes e)).getLast?.map okResponse := by
  induction messages generalizing s with
  | nil => exact ⟨s, [], rfl, acceptedRun_nil e s, rfl⟩
  | cons message messages ih =>
    obtain ⟨t, sent, hrun, haccepted, hlast⟩ := hashCommands_run e message s
    obtain ⟨u, sent', hrun', haccepted', hlast'⟩ := ih t
    refine ⟨u, sent ++ sent', ?_, acceptedRun_append haccepted haccepted', ?_⟩
    · rw [List.flatMap_cons, runCommands_append hrun, hrun']
    · rw [List.getLast?_append, hlast, hlast', List.map_cons, List.getLast?_cons]
      cases (messages.map (digestBytes e)).getLast? <;> rfl

/-- Where the chunk hash list's last digest has been answered, the root's own commands end with the
root hash (R209). -/
theorem rootCommands_run {c : Nat} (hc : 0 < c) {data : List Byte} (hne : data ≠ []) {s : State}
    (hlast : s.responses.getLast? = (chunkHashes c data).getLast?.map okResponse) :
    ∃ t root, ed2kRoot c data = some root ∧ runCommands (rootCommands c data) s = .next t ∧
      t.responses.getLast? = some (okResponse root) ∧ othersKept .md4 s t ∧ t.fault = s.fault := by
  have hlength : (chunkHashes c data).length = (chunksOf c data).length := List.length_map _
  rw [rootCommands]
  split
  · next hle =>
    have hpos := List.length_pos_iff.2 (chunkHashes_ne_nil hc hne)
    obtain ⟨d, hone⟩ := List.length_eq_one_iff.1 (by omega : (chunkHashes c data).length = 1)
    obtain ⟨others, -, fault, -⟩ := acceptedRun_nil .md4 s
    exact ⟨s, d, ed2kRoot_of_one hone, rfl, by rw [hlast, hone]; rfl, others, fault⟩
  · next hgt =>
    obtain ⟨t, sent, hrun, haccepted, hsent⟩ := hashCommands_run .md4 (chunkHashes c data).flatten s
    have hroot := getLast?_responses_of_acceptedRun haccepted hsent
    obtain ⟨others, -, fault, -⟩ := haccepted
    exact ⟨t, _, ed2kRoot_of_many (by omega), hrun, hroot, others, fault⟩

/-- The HASHes of all chunks and the root's own commands, from any state (R208, R209). -/
theorem ed2kCommands_run {c : Nat} (hc : 0 < c) {data : List Byte} (hne : data ≠ []) (s : State) :
    ∃ t root, ed2kRoot c data = some root ∧ runCommands (ed2kCommands c data) s = .next t ∧
      t.responses.getLast? = some (okResponse root) ∧ othersKept .md4 s t ∧ t.fault = s.fault := by
  obtain ⟨u, sent, hrun, haccepted, hsent⟩ := hashes_run .md4 (chunksOf c data) s
  change sent.getLast? = (chunkHashes c data).getLast?.map okResponse at hsent
  have hlast : u.responses.getLast? = (chunkHashes c data).getLast?.map okResponse := by
    rw [List.getLast?_eq_some_getLast (chunkHashes_ne_nil hc hne)] at hsent ⊢
    exact getLast?_responses_of_acceptedRun haccepted hsent
  obtain ⟨t, root, hroot, hrun', hanswer, others', fault'⟩ := rootCommands_run hc hne hlast
  obtain ⟨others, -, fault, -⟩ := haccepted
  exact ⟨t, root, hroot, by rw [ed2kCommands, runCommands_append hrun, hrun'], hanswer,
    othersKept_trans others others', fault'.trans fault⟩

/-- Settles O57: the chunks by their offsets, and the run of their HASHes. -/
theorem ed2kCommandsGiveRoot : Obligations.Ed2kCommandsGiveRoot := by
  intro c data s hc hne _
  have hstart {i : Nat} (h : i < (chunksOf c data).length) : i * c < data.length :=
    Nat.lt_of_not_le fun hle => Nat.not_le_of_lt h ((length_chunksOf_le_iff hc).2 hle)
  refine ⟨length_chunksOf hc data, fun i hi => ?_, fun i hi => ?_, fun _ => piecesOf_lengths hc,
    piecesOf_flatten hc (Nat.le_refl _), ed2kCommands_run hc hne s⟩
  · rw [chunksOf_getElem? hc, if_pos (hstart hi)]
  · have hnext := hstart hi
    rw [Nat.succ_mul] at hnext
    rw [List.length_take, List.length_drop]
    omega

end Sys2Proof.Machine
end

section
/-! SUPPORT. A file that arrives in I/O blocks (45_host_sequences.md R203, R208): the chunks the
host has opened so far, and what the commands of each part of a block do. -/

namespace Sys2Proof.Machine

/-- The chunks the host has opened when `data` has been sent: those of the file so far, or the empty
one that is open before the first byte (R207, R208). -/
def openedChunks (c : Nat) (data : List Byte) : List (List Byte) :=
  data.take c :: chunksOf c (data.drop c)

theorem openedChunks_of_le {c : Nat} {data : List Byte} (h : data.length ≤ c) :
    openedChunks c data = [data] := by
  rw [openedChunks, List.take_of_length_le h, List.drop_eq_nil_of_le h, chunksOf_nil]

/-- The chunks opened for `data` split into closed ones and the open one, which lacks `chunkRoom`
bytes, and whatever is sent next changes only the open one (R207, R208). -/
def splitsOpened (c : Nat) (data : List Byte) : Prop :=
  ∃ closed last, openedChunks c data = closed ++ [last] ∧
    last.length + chunkRoom c data.length = c ∧
    ∀ more, openedChunks c (data ++ more) = closed ++ openedChunks c (last ++ more)

section

variable {c : Nat} (hc : 0 < c)

include hc

theorem openedChunks_of_ne_nil {data : List Byte} (h : data ≠ []) :
    openedChunks c data = chunksOf c data := (chunksOf_of_ne_nil hc h).symm

theorem openedChunks_of_lt {data : List Byte} (h : c < data.length) :
    openedChunks c data = data.take c :: openedChunks c (data.drop c) := by
  have hne : data.drop c ≠ [] := List.length_pos_iff.1 (by rw [List.length_drop]; omega)
  rw [openedChunks_of_ne_nil hc hne, openedChunks]

/-- Within the first chunk the room is what the chunk lacks (R207). -/
theorem chunkRoom_of_le {pos : Nat} (h : pos ≤ c) : chunkRoom c pos = c - pos := by
  rw [chunkRoom]
  split
  · omega
  · obtain rfl | hlt := Nat.eq_or_lt_of_le h
    · rw [Nat.mod_self, Nat.sub_zero, Nat.mod_self, Nat.sub_self]
    · rw [Nat.mod_eq_of_lt hlt, Nat.mod_eq_of_lt (by omega)]

theorem splitsOpened_of_le {data : List Byte} (h : data.length ≤ c) : splitsOpened c data :=
  ⟨[], data, openedChunks_of_le h, by rw [chunkRoom_of_le hc h]; omega, fun _ => rfl⟩

/-- After the first chunk the room is that of the file without its first chunk (R207). -/
theorem chunkRoom_of_lt {pos : Nat} (h : c < pos) : chunkRoom c pos = chunkRoom c (pos - c) := by
  rw [chunkRoom, chunkRoom, if_neg (by omega), if_neg (by omega), Nat.mod_eq_sub_mod h.le]

/-- At every point of a file the opened chunks split so, by induction on its chunks (R207). -/
theorem openedChunks_split (data : List Byte) : splitsOpened c data := by
  induction data using chunks_induction hc with
  | nil => exact splitsOpened_of_le hc (Nat.zero_le c)
  | cut data _ ih =>
    obtain hle | hlt := le_or_gt data.length c
    · exact splitsOpened_of_le hc hle
    · obtain ⟨closed, last, hopened, hroom, hmore⟩ := ih
      refine ⟨data.take c :: closed, last, ?_, ?_, fun more => ?_⟩
      · rw [openedChunks_of_lt hc hlt, hopened, List.cons_append]
      · rwa [chunkRoom_of_lt hc hlt, ← List.length_drop]
      · rw [openedChunks_of_lt hc (by rw [List.length_append]; omega),
          List.take_append_of_le_length hlt.le, List.drop_append_of_le_length hlt.le, hmore,
          List.cons_append]

end

/-- Accepted MD4 commands whose responses with a digest answer exactly `digests`, in order (R80,
R208). -/
def digestRun (digests : List (List Byte)) (s t : State) : Prop :=
  ∃ answers : List (List Byte), acceptedRun .md4 (answers.map okResponse) s t ∧
    answers.filter (fun d => !d.isEmpty) = digests

theorem digestRun_append {digests digests' : List (List Byte)} {s t u : State}
    (hst : digestRun digests s t) (htu : digestRun digests' t u) :
    digestRun (digests ++ digests') s u := by
  obtain ⟨answers, haccepted, rfl⟩ := hst
  obtain ⟨answers', haccepted', rfl⟩ := htu
  refine ⟨answers ++ answers', ?_, List.filter_append ..⟩
  rw [List.map_append]
  exact acceptedRun_append haccepted haccepted'

/-- RESET starts an empty chunk (R111, R208). -/
theorem md4Reset_run (s : State) :
    ∃ t, runCommands [.md4Reset] s = .next t ∧ holdsMessage .md4 t [] ∧ digestRun [] s t := by
  obtain ⟨hframe, hempty⟩ := reset_holdsMessage .md4 s
  exact ⟨_, runCommands_cons _ [] s, hempty, [[]], acceptedRun_of_acceptedFrame hframe, rfl⟩

/-- A part of a block extends the open chunk (R203, R208). -/
theorem partCommands_run {s : State} {chunk : List Byte} (h : holdsMessage .md4 s chunk)
    (part : List Byte) :
    ∃ t, runCommands (partCommands part) s = .next t ∧ holdsMessage .md4 t (chunk ++ part) ∧
      digestRun [] s t := by
  rw [partCommands]
  split
  · next hempty =>
    rw [List.isEmpty_iff.1 hempty, List.append_nil]
    exact ⟨s, rfl, h, [], acceptedRun_nil .md4 s, rfl⟩
  · obtain ⟨t, hrun, hholds, haccepted⟩ := updates_holdsMessage h (payloadPieces part)
    rw [payloadPieces_flatten] at hholds
    refine ⟨t, hrun, hholds, List.replicate (payloadPieces part).length [], ?_, ?_⟩
    · rwa [List.map_replicate]
    · exact List.filter_replicate_of_neg (by decide)

/-- FINISH and GETHASH of the open chunk answer its digest, and last (R104, R114, R208). -/
theorem closeChunk_run {s : State} {chunk : List Byte} (h : holdsMessage .md4 s chunk) :
    ∃ t, runCommands [.md4Finish, .md4GetHash] s = .next t ∧
      digestRun [digestBytes .md4 chunk] s t ∧
      t.responses.getLast? = some (okResponse (digestBytes .md4 chunk)) := by
  obtain ⟨hfinish, hlatch⟩ := finish_latchesDigest h
  have hrun := acceptedRun_cons hfinish
    (acceptedRun_of_acceptedFrame (getHash_of_latchesDigest hlatch))
  have hdigest : (digestBytes .md4 chunk).isEmpty = false := by
    rw [List.isEmpty_eq_false_iff, ← List.length_pos_iff, digestBytes_md4_length]
    decide
  refine ⟨_, ?_, ⟨[[], digestBytes .md4 chunk], hrun, ?_⟩,
    getLast?_responses_of_acceptedRun hrun rfl⟩
  · rw [runCommands_cons, runCommands_cons]; rfl
  · simp [hdigest]

/-- A part after a boundary closes the open chunk, answers its digest, and opens the next one
(R208). -/
theorem boundary_run {s : State} {chunk : List Byte} (h : holdsMessage .md4 s chunk)
    (part : List Byte) :
    ∃ t, runCommands (boundaryCommands ++ partCommands part) s = .next t ∧
      holdsMessage .md4 t part ∧ digestRun [digestBytes .md4 chunk] s t := by
  obtain ⟨t, hclose, hdigest, -⟩ := closeChunk_run h
  obtain ⟨u, hreset, hempty, hnone⟩ := md4Reset_run t
  obtain ⟨v, hpart, hholds, hnone'⟩ := partCommands_run hempty part
  refine ⟨v, ?_, hholds, digestRun_append hdigest (digestRun_append hnone hnone')⟩
  have hboundary : runCommands boundaryCommands s = .next u :=
    (runCommands_append (js := [.md4Reset]) hclose).trans hreset
  rw [runCommands_append hboundary, hpart]

/-- Several parts after boundaries: each chunk but the last is closed and its digest answered, and
the last one is open (R208). -/
theorem boundaries_run (parts : List (List Byte)) {s : State} {chunk : List Byte}
    (h : holdsMessage .md4 s chunk) :
    ∃ t closed last,
      runCommands (parts.flatMap fun part => boundaryCommands ++ partCommands part) s = .next t ∧
      chunk :: parts = closed ++ [last] ∧ holdsMessage .md4 t last ∧
      digestRun (closed.map (digestBytes .md4)) s t := by
  induction parts generalizing s chunk with
  | nil => exact ⟨s, [], chunk, rfl, rfl, h, [], acceptedRun_nil .md4 s, rfl⟩
  | cons part parts ih =>
    obtain ⟨t, hrun, hholds, hdigest⟩ := boundary_run h part
    obtain ⟨u, closed, last, hrun', hparts, hlast, hdigests⟩ := ih hholds
    refine ⟨u, chunk :: closed, last, ?_, by rw [hparts, List.cons_append], hlast,
      digestRun_append hdigest hdigests⟩
    rw [List.flatMap_cons, runCommands_append hrun, hrun']

/-- From state `s` the host has sent `data`: the last chunk is open, and the digests of the chunks
before it have been answered (R208). -/
def streamed (c : Nat) (data : List Byte) (s t : State) : Prop :=
  ∃ closed last, openedChunks c data = closed ++ [last] ∧ holdsMessage .md4 t last ∧
    digestRun (closed.map (digestBytes .md4)) s t

/-- The commands of one I/O block send the block (R203, R208). -/
theorem blockCommands_run {c : Nat} (hc : 0 < c) {data : List Byte} {s t : State}
    (h : streamed c data s t) (block : List Byte) :
    ∃ u, runCommands (blockCommands c (chunkRoom c data.length) block) t = .next u ∧
      streamed c (data ++ block) s u := by
  obtain ⟨closed, last, hopened, hholds, hdigests⟩ := h
  obtain ⟨closed', last', hopened', hroom, hmore⟩ := openedChunks_split hc data
  obtain ⟨rfl, hlast⟩ := List.append_inj' (hopened.symm.trans hopened') rfl
  obtain rfl := List.singleton_inj.1 hlast
  obtain ⟨v, hpart, hfilled, hnone⟩ :=
    partCommands_run hholds (block.take (chunkRoom c data.length))
  obtain ⟨u, closed'', last'', hparts, hchunks, hholds', hdigests'⟩ := boundaries_run
    (piecesOf c block.length (block.drop (chunkRoom c data.length))) hfilled
  have hblock : openedChunks c (last ++ block) = closed'' ++ [last''] := by
    have hlack : c - last.length = chunkRoom c data.length := by omega
    rw [← hchunks, openedChunks, List.take_append, List.drop_append, hlack,
      List.take_of_length_le (by omega), List.drop_eq_nil_of_le (by omega), List.nil_append,
      piecesOf_eq_chunksOf hc (by rw [List.length_drop]; omega)]
  refine ⟨u, ?_, closed ++ closed'', last'', ?_, hholds', ?_⟩
  · rw [blockCommands, runCommands_append hpart, hparts]
  · rw [hmore, hblock, List.append_assoc]
  · rw [List.map_append]
    exact digestRun_append hdigests (digestRun_append hnone hdigests')

/-- The commands of the I/O blocks send the blocks in order (R203, R208). -/
theorem blocksCommands_run {c : Nat} (hc : 0 < c) (blocks : List (List Byte)) {data : List Byte}
    {s t : State} (h : streamed c data s t) :
    ∃ u, runCommands (blocksCommands c data.length blocks) t = .next u ∧
      streamed c (data ++ blocks.flatten) s u := by
  induction blocks generalizing data t with
  | nil => exact ⟨t, rfl, by rwa [List.flatten_nil, List.append_nil]⟩
  | cons block blocks ih =>
    obtain ⟨u, hrun, hsent⟩ := blockCommands_run hc h block
    obtain ⟨v, hrun', hsent'⟩ := ih hsent
    refine ⟨v, ?_, ?_⟩
    · rw [blocksCommands, runCommands_append hrun, ← List.length_append, hrun']
    · rwa [List.flatten_cons, ← List.append_assoc]

/-- A file that arrives in blocks is answered with its chunk hash list (R208). -/
theorem chunkStreamCommands_run {c : Nat} (hc : 0 < c) {blocks : List (List Byte)}
    (hne : blocks.flatten ≠ []) (s : State) :
    ∃ t, runCommands (chunkStreamCommands c blocks) s = .next t ∧
      digestRun (chunkHashes c blocks.flatten) s t ∧
      t.responses.getLast? = (chunkHashes c blocks.flatten).getLast?.map okResponse := by
  obtain ⟨t, hreset, hempty, hnone⟩ := md4Reset_run s
  have hstart : streamed c [] s t := ⟨[], [], openedChunks_of_le (Nat.zero_le c), hempty, hnone⟩
  obtain ⟨u, hblocks, closed, last, hopened, hholds, hdigests⟩ :=
    blocksCommands_run hc blocks hstart
  obtain ⟨v, hclose, hdigest, hanswer⟩ := closeChunk_run hholds
  have hhashes : chunkHashes c blocks.flatten =
      closed.map (digestBytes .md4) ++ [digestBytes .md4 last] := by
    rw [chunkHashes, ← openedChunks_of_ne_nil hc hne, ← List.nil_append blocks.flatten, hopened,
      List.map_append, List.map_singleton]
  refine ⟨v, ?_, hhashes ▸ digestRun_append hdigests hdigest, ?_⟩
  · rw [chunkStreamCommands, if_neg (by rwa [List.isEmpty_iff]), ← List.singleton_append,
      runCommands_append hreset]
    exact (runCommands_append hblocks).trans hclose
  · rw [hanswer, hhashes, List.getLast?_concat]
    rfl

/-- A well-formed command of the MD4 engine. -/
def isMd4Command (i : Instr) : Prop := i.engine = .md4 ∧ i.wellFormed = true

theorem partCommands_md4 {part : List Byte} : ∀ i ∈ partCommands part, isMd4Command i := by
  intro i hi
  rw [partCommands] at hi
  split at hi
  · cases hi
  · refine ⟨?_, updateCommands_wellFormed hi⟩
    obtain ⟨piece, -, rfl⟩ := List.mem_map.1 hi
    rfl

theorem boundaryCommands_md4 : ∀ i ∈ boundaryCommands, isMd4Command i := by
  simp [boundaryCommands, isMd4Command, Instr.engine, Instr.wellFormed]

theorem blockCommands_md4 {c room : Nat} {block : List Byte} :
    ∀ i ∈ blockCommands c room block, isMd4Command i := by
  intro i hi
  obtain hpart | hparts := List.mem_append.1 hi
  · exact partCommands_md4 i hpart
  · obtain ⟨part, -, hi⟩ := List.mem_flatMap.1 hparts
    exact (List.mem_append.1 hi).elim (boundaryCommands_md4 i) (partCommands_md4 i)

theorem blocksCommands_md4 {c : Nat} (blocks : List (List Byte)) (pos : Nat) :
    ∀ i ∈ blocksCommands c pos blocks, isMd4Command i := by
  induction blocks generalizing pos with
  | nil => exact fun _ hi => by cases hi
  | cons block blocks ih =>
    exact fun i hi => (List.mem_append.1 hi).elim (blockCommands_md4 i) (ih _ i)

theorem chunkStreamCommands_md4 {c : Nat} {blocks : List (List Byte)} :
    ∀ i ∈ chunkStreamCommands c blocks, isMd4Command i := by
  intro i hi
  rw [chunkStreamCommands] at hi
  split at hi
  · cases hi
  · rw [List.mem_cons, List.mem_append, List.mem_pair] at hi
    obtain rfl | hblocks | rfl | rfl := hi
    · exact ⟨rfl, rfl⟩
    · exact blocksCommands_md4 blocks 0 i hblocks
    · exact ⟨rfl, rfl⟩
    · exact ⟨rfl, rfl⟩

/-- A part that one UPDATE can carry goes in one (R203, R208). -/
theorem partCommands_of_fits {part : List Byte} (hne : part ≠ []) (h : payloadFits part = true) :
    partCommands part = [.md4Update part] := by
  rw [partCommands, if_neg (by rwa [List.isEmpty_iff]), updateCommands, payloadPieces_of_fits h]
  rfl

/-- A block that straddles one boundary is sent in two parts (R208). -/
theorem blockCommands_of_straddles {c room : Nat} {block : List Byte} (hroom : 0 < room)
    (hlt : room < block.length) (hle : block.length ≤ room + c) (hfits : block.length < 2 ^ 32) :
    blockCommands c room block =
      [.md4Update (block.take room), .md4Finish, .md4GetHash, .md4Reset,
        .md4Update (block.drop room)] := by
  have htake : (block.take room).length = room := List.length_take_of_le hlt.le
  have hdrop : (block.drop room).length = block.length - room := List.length_drop
  have hpieces : piecesOf c block.length (block.drop room) = [block.drop room] := by
    rw [piecesOf_eq_chunksOf (by omega) (by omega),
      chunksOf_of_le (by omega) (List.length_pos_iff.1 (by omega)) (by omega)]
  rw [blockCommands, hpieces, List.flatMap_singleton,
    partCommands_of_fits (List.length_pos_iff.1 (by omega)) (payloadFits_iff.2 (by omega)),
    partCommands_of_fits (List.length_pos_iff.1 (by omega)) (payloadFits_iff.2 (by omega))]
  rfl

/-- Settles O59: the run of the blocks answers the chunk hash list, and the root's own commands go
on from the state it ends in. -/
theorem blockStreamGivesChunkHashes : Obligations.BlockStreamGivesChunkHashes := by
  refine ⟨fun _ _ _ => blockCommands_of_straddles, fun c blocks s hc hne _ =>
    ⟨chunkStreamCommands_md4, ?_⟩⟩
  obtain ⟨t, hrun, ⟨answers, ⟨others, input, fault, responses⟩, hdigests⟩, hlast⟩ :=
    chunkStreamCommands_run hc hne s
  obtain ⟨u, root, hroot, hrun', hanswer, -⟩ := rootCommands_run hc hne hlast
  refine ⟨⟨t, answers.map okResponse, hrun, responses, ?_, ?_, others, input, fault⟩,
    u, root, hroot, ?_, hanswer⟩
  · exact List.forall_mem_map.2 fun _ _ => rfl
  · rw [List.map_map]
    exact (congrArg _ (List.map_id answers)).trans hdigests
  · rw [ed2kBlockCommands, runCommands_append hrun, hrun']

end Sys2Proof.Machine
end

section
/-! SUPPORT. Acceptance and rejection (60_exceptions.md R232, R235, R244): the admission table, what
a step adds to the responses and to the rejection record, and the view that stops at rejections. -/

namespace Sys2Proof.Machine

/-- A command is accepted or rejected as the admission table says (R235). -/
theorem exec_accepted_or_rejected (i : Instr) (s : State) :
    ∃ t, exec i s = .next t ∧
      if admits i.op (s.phaseOf i.engine) = true then ∃ d, acceptedFrame i.engine d s t
      else protocolRejected i s t := by
  split
  case isTrue h => exact ⟨_, exec_eq_commandState i s, _, acceptedFrame_commandState h⟩
  case isFalse h => exact exec_rejected h

/-- Settles O24: each cell of the statement is the table's own. -/
theorem admissionTable : Obligations.AdmissionTable := by
  intro i s
  obtain ⟨t, hexec, h⟩ := exec_accepted_or_rejected i s
  refine ⟨t, hexec, ?_⟩
  revert h
  cases i.op <;> cases s.phaseOf i.engine <;> exact id

/-- Settles O41: the decoder has three answers, and the step one for each. -/
theorem stepAlwaysAnswers : Obligations.StepAlwaysAnswers := by
  intro s
  cases hd : decode s.input with
  | command i rest => exact ⟨_, (step_command hd).trans (exec_eq_commandState i _)⟩
  | illegal cw rest => exact ⟨_, step_illegal hd⟩
  | incomplete => exact ⟨s, step_incomplete hd⟩

/-- A step that accepts: one OK response, the record kept (R80). -/
def sendsOk (s t : State) : Prop :=
  t.fault = s.fault ∧ ∃ r, t.responses = s.responses ++ [r] ∧ r.status = .ok

/-- A step that rejects: one response that is not OK, and the first rejection on record (R232,
R233, R244). -/
def sendsRejection (s t : State) : Prop :=
  (∃ f, t.fault = some (s.fault.getD f)) ∧
    ∃ r, t.responses = s.responses ++ [r] ∧ r.status ≠ .ok

/-- What a step does to the responses and to the record, and nothing else: it accepts, rejects or
waits. -/
theorem step_sends {s t : State} (h : step s = .next t) :
    sendsOk s t ∨ sendsRejection s t ∨ t = s := by
  obtain ⟨i, rest, -, hexec⟩ | ⟨cw, rest, -, rfl⟩ | ⟨-, rfl⟩ := step_cases h
  · obtain ⟨u, hu, htable⟩ := exec_accepted_or_rejected i (s.setInput rest)
    cases hexec.symm.trans hu
    split at htable
    · obtain ⟨d, -, -, hfault, hresponses⟩ := htable
      exact .inl ⟨hfault, _, hresponses, rfl⟩
    · obtain ⟨-, -, hresponses, hfault⟩ := htable
      exact .inr (.inl ⟨⟨_, hfault⟩, _, hresponses, by decide⟩)
  · exact .inr (.inl ⟨⟨_, rfl⟩, _, rfl, by decide⟩)
  · exact .inr (.inr rfl)

/-- Settles O43: of the three things a step can do only a rejection records, and only where nothing
is on record. -/
theorem firstRejectionIsKept : Obligations.FirstRejectionIsKept := by
  intro s t h
  obtain ⟨hfault, r, hr, hok⟩ | ⟨⟨f, hfault⟩, hsent⟩ | rfl := step_sends h
  · refine ⟨fun f hf => hfault.trans hf, fun hnone => iff_of_false (absurd (hfault.trans hnone)) ?_⟩
    rintro ⟨r', hr', hnot⟩
    obtain rfl : r = r' := by simpa using hr.symm.trans hr'
    exact hnot hok
  · exact ⟨fun f' hf => by rw [hfault, hf, Option.getD_some],
      fun _ => iff_of_true (by rw [hfault]; exact Option.some_ne_none _) hsent⟩
  · exact ⟨fun _ => id, fun hnone => iff_of_false (absurd hnone)
      fun ⟨_, hr, _⟩ => ne_of_responses_append hr rfl⟩

/-- Where nothing is on record after a step, the stopping view is the step (R244). -/
theorem contractStep_of_safe {s t : State} (h : step s = .next t) (ht : t.fault = none) :
    contractStep s = .next t := by
  simp only [contractStep, h, ht]

/-- Where a rejection is on record after a step, the stopping view faults with it (R244). -/
theorem contractStep_of_fault {s t : State} {f : Fault} (h : step s = .next t)
    (ht : t.fault = some f) : contractStep s = .fault f := by
  simp only [contractStep, h, ht]

/-- Settles O44: with nothing on record before, a step leaves on record the rejection it makes. -/
theorem contractStepStopsAtRejections : Obligations.ContractStepStopsAtRejections := by
  intro s hsafe
  have hnone : s.fault = none := Option.isNone_iff_eq_none.1 hsafe
  cases hd : decode s.input with
  | command i rest =>
    have hstep := (step_command hd).trans (exec_eq_commandState i _)
    have hphase := s.phaseOf_setInput rest i.engine
    dsimp only
    split
    case isTrue h =>
      rw [hstep]
      exact contractStep_of_safe hstep ((if_pos (hphase ▸ h)).trans hnone)
    case isFalse h =>
      exact contractStep_of_fault hstep ((if_neg (hphase ▸ h)).trans (by simp [hnone]))
  | illegal cw rest => exact contractStep_of_fault (step_illegal hd) (by simp [hnone])
  | incomplete => exact contractStep_of_safe (step_incomplete hd) hnone

end Sys2Proof.Machine
end

section
/-! SUPPORT. The minimal boot (70_reset_and_hazards.md R263): a RESET of each engine, and what the
four leave. -/

namespace Sys2Proof.Machine

/-- The commands of the minimal boot, in the order of their bytes (R263). -/
def bootCommands : List Instr := [.md4Reset, .md5Reset, .sha1Reset, .crc32Reset]

theorem encodeAll_bootCommands : encodeAll bootCommands = [0x00, 0x04, 0x08, 0x0C] := rfl

theorem bootCommands_wellFormed : ∀ i ∈ bootCommands, i.wellFormed = true := by decide

/-- A RESET is accepted in every phase, and the rest of the list runs from the state it leaves
(R235). -/
theorem runCommands_reset_cons {i : Instr} (hop : i.op = .reset) (is : List Instr) (s : State) :
    runCommands (i :: is) s = runCommands is (acceptedState i s) := by
  rw [runCommands_cons, commandState_of_admits (by rw [hop]; exact admits_reset _)]

/-- The minimal boot leaves every engine as its own RESET does and sends four empty OK responses
(R111, R185, R263). -/
theorem bootCommands_run (s : State) :
    ∃ t, runCommands bootCommands s = .next t ∧ t.md4 = resetEngineState md4Alg s.md4 ∧
      t.md5 = resetEngineState md5Alg s.md5 ∧ t.sha1 = resetEngineState sha1Alg s.sha1 ∧
      t.crc32 = crcReset s.crc32 ∧ t.input = s.input ∧
      t.responses = s.responses ++ List.replicate 4 (okResponse []) := by
  have hrun : runCommands bootCommands s = .next (acceptedState .crc32Reset
      (acceptedState .sha1Reset (acceptedState .md5Reset (acceptedState .md4Reset s)))) := by
    rw [bootCommands, runCommands_reset_cons rfl, runCommands_reset_cons rfl,
      runCommands_reset_cons rfl, runCommands_reset_cons rfl, runCommands]
  refine ⟨_, hrun, rfl, rfl, rfl, rfl, rfl, ?_⟩
  simp [acceptedState, okResponse]

/-- Settles O46: the four steps are the four RESETs, each accepted in any phase, and each engine is
left as its own RESET leaves it. -/
theorem minimalBoot : Obligations.MinimalBoot := by
  intro s rest hinput
  have hsteps := commandStreamRunsCommands bootCommands s rest bootCommands_wellFormed
    (encodeAll_bootCommands ▸ hinput)
  obtain ⟨t, hrun, hmd4, hmd5, hsha1, hcrc, hrest, hsent⟩ := bootCommands_run (s.setInput rest)
  obtain ⟨ph4, h4, len4⟩ := hmd4 ▸ reset_regs md4Alg s.md4
  obtain ⟨ph5, h5, len5⟩ := hmd5 ▸ reset_regs md5Alg s.md5
  obtain ⟨ph1, h1, len1⟩ := hsha1 ▸ reset_regs sha1Alg s.sha1
  have hready (e : Engine) : t.phaseOf e = .ready := by
    cases e with
    | md4 => exact ph4
    | md5 => exact ph5
    | sha1 => exact ph1
    | crc32 => exact congrArg CrcEngine.ph hcrc
  exact ⟨t, hsteps.trans hrun, hrest, hready, h4, len4, h5, len5, h1, len1,
    congrArg CrcEngine.crc hcrc, hsent, rfl⟩

end Sys2Proof.Machine
end
